-- ==== Sys2Proof/Word.lean ====
section
/-! DEFINITION. The word types of VDS (R9): bytes, 32-bit bus words, and the widths of its registers. -/

namespace Sys2Proof

/-- An 8-bit unsigned value (R9). -/
abbrev Byte := BitVec 8

/-- A 32-bit word of the bus (R44, R45). -/
abbrev Word := BitVec 32

/-- A 17-bit index or count: `LEN`, `CONSUMED`, `BODY_LEN`, `PTR`, `CNT` (R19, R26, R28, R36, R39). -/
abbrev Index := BitVec 17

/-- The storage of the W-bit registers `VALUE` and `ACC` (R25, R37); W is at most 64 (R6). -/
abbrev Wide := BitVec 64

end Sys2Proof
end

