-- ==== Sys2Proof/Syntax.lean ====
section
/-! DEFINITION. The commands of VDS (R2, R60): one constructor for each row of spec/opcode_table.json. -/

namespace Sys2Proof

/-- The five commands a host writes to `CMD` (R2). A word that is none of them is illegal; it is no command of the
table, and `decode` rejects it by name (R64). -/
inductive Instr where
  /-- `NOP` (R99). -/
  | nop
  /-- `VARINT off` (R79): `off` is the start index, 0..65535 (R61). -/
  | varint (off : Nat)
  /-- `SLICE` (R89). -/
  | slice
  /-- `CHKCMP` (R91). -/
  | chkcmp
  /-- `CLEAR` (R100). -/
  | clear
  deriving DecidableEq, Repr

end Sys2Proof
end

