-- ==== Sys2Proof/WellFormed.lean ====
section
/-! DEFINITION. Which commands are well formed: those with an encoding (R59, R61). -/

namespace Sys2Proof

/-- A command has an encoding exactly when its operand fits its field: `OFFSET` is 16 bits, 0..65535 (R59, R61). -/
def Instr.wf : Instr → Bool
  | .nop => true
  | .varint off => decide (off ≤ 65535)
  | .slice => true
  | .chkcmp => true
  | .clear => true

end Sys2Proof
end

