-- ==== Sys2Proof/Decode.lean ====
section
/-! DEFINITION. The decoder of the 32-bit command word, total, rejecting by name (R59 to R66), and its encoder. -/

namespace Sys2Proof

/-- Why a word is illegal (R64), in the order `decode` looks. -/
inductive Illegal where
  /-- A bit of RSV, [15:4], is set (R62). -/
  | reservedBits
  /-- OP is 0x5..0xF (R60). -/
  | reservedOp
  /-- OFFSET is not 0 and OP is 0x0, 0x2, 0x3 or 0x4 (R63). -/
  | nonzeroOffset
  deriving DecidableEq, Repr

/-- `OP`, bits [3:0] (R59). -/
def opField (c : Word) : BitVec 4 := c.extractLsb' 0 4

/-- `RSV`, bits [15:4] (R59). -/
def rsvField (c : Word) : BitVec 12 := c.extractLsb' 4 12

/-- `OFFSET`, bits [31:16] (R59). -/
def offsetField (c : Word) : BitVec 16 := c.extractLsb' 16 16

/-- `legal(c)` as R63 writes it. -/
def legal (c : Word) : Bool :=
  rsvField c == 0 &&
    (opField c == 0x1 ||
      ((opField c == 0x0 || opField c == 0x2 || opField c == 0x3 || opField c == 0x4) && offsetField c == 0))

/-- A command without an operand must have `OFFSET = 0` (R63). -/
def withoutOffset (c : Word) (i : Instr) : Except Illegal Instr :=
  if offsetField c = 0 then .ok i else .error .nonzeroOffset

/-- `decode(c)`, total on every 32-bit word (R65). -/
def decode (c : Word) : Except Illegal Instr :=
  if rsvField c ≠ 0 then .error .reservedBits
  else if opField c = 0x0 then withoutOffset c .nop
  else if opField c = 0x1 then .ok (.varint (offsetField c).toNat)
  else if opField c = 0x2 then withoutOffset c .slice
  else if opField c = 0x3 then withoutOffset c .chkcmp
  else if opField c = 0x4 then withoutOffset c .clear
  else .error .reservedOp

/-- The word with the three fields of format `C` (R59). -/
def formatC (off : BitVec 16) (op : BitVec 4) : Word := off ++ (0 : BitVec 12) ++ op

/-- The word of a command (R60, R68). -/
def encode : Instr → Word
  | .nop => formatC 0 0x0
  | .varint off => formatC (BitVec.ofNat 16 off) 0x1
  | .slice => formatC 0 0x2
  | .chkcmp => formatC 0 0x3
  | .clear => formatC 0 0x4

/-- The command the decoder reads from a table row's bits. A command is one 32-bit word (R66); the bits above
`nbits` are 0. -/
def decodeTableWord (nbits w : Nat) : Option Instr :=
  (decode (BitVec.ofNat 32 (w % 2 ^ nbits))).toOption

end Sys2Proof
end

