-- ==== Sys2Proof/Config.lean ====
section
/-! DEFINITION. What an instance of VDS fixes: the parameters W and N (R6, R7), the constants of R8, and the free
value a host read of an unwritten buffer byte draws (R118). -/

namespace Sys2Proof

/-- The parameters of one instance, in a form in which every value is legal: `1 ≤ W ≤ 64` (R6), and `N` a multiple
of 4 with `4 ≤ N ≤ 65536` (R7). They are configuration: no step changes them (log entry 1). -/
structure Params where
  /-- `W - 1`. -/
  wPred : Fin 64
  /-- `N / 4 - 1`. -/
  nWordsPred : Fin 16384
  deriving DecidableEq, Repr

/-- The value width `W` (R6). -/
def Params.W (p : Params) : Nat := p.wPred.val + 1

/-- The buffer capacity `N` in bytes (R7). -/
def Params.N (p : Params) : Nat := 4 * (p.nWordsPred.val + 1)

/-- The default instance: `W = 64`, `N = 256` (R6, R7; decisions D2, D3). -/
def Params.standard : Params := { wPred := 63, nWordsPred := 63 }

namespace Config

/-- The length of a key in bytes (R8). -/
def keyBytes : Nat := 32

/-- The length of the embedded checksum in bytes (R8). -/
def chkBytes : Nat := 4

/-- FREE VALUE: the byte that draw number `n` of an unwritten buffer byte gives, "a free draw (any value 0..255),
under no law" (R118). It has no body: nothing can be proved about its values (log entry 6). -/
opaque freeByte : Nat → BitVec 8

end Config
end Sys2Proof
end

