-- ==== Sys2Proof/Machine/State.lean ====
section
/-! DEFINITION. The state of one VDS instance (R13), its reset values (R41), the reasons a step can stop, and the
model's own fields for the host agent (R5, R53). -/

namespace Sys2Proof.Machine

/-- The buffer `BUF` as written bytes by index, indices strictly rising; an index that is not listed is unwritten
and has no value (R18, R118). -/
abbrev Memory := List Host.Cell

/-- The engine phase `PHASE` (R34). -/
inductive Phase where
  | idle
  | decode
  | scan
  | check
  deriving DecidableEq, Repr

/-- `MODE` (R35): which command the `SCAN` phase serves. -/
inductive Mode where
  /-- `VARINT`. -/
  | mv
  /-- `SLICE`. -/
  | ms
  deriving DecidableEq, Repr

/-- The codes of `STATUS.ERR` (R104). Codes 7 to 15 are never raised; they have no constructor (log entry 14). -/
inductive ErrCode where
  | noError
  | malformedVarint
  | varintOverflow
  | truncatedAddress
  | checksumMismatch
  | illegalCommand
  | noSlice
  deriving DecidableEq, Repr

/-- `OK` or `SLVERR` (R44). -/
inductive Resp where
  | ok
  | slverr
  deriving DecidableEq, Repr

/-- What the block hands back for one transaction (R44). -/
inductive BusResponse where
  /-- Of a `BusRead`: the response and the data word. -/
  | read (r : Resp) (d : Word)
  /-- Of a `BusWrite`. -/
  | write (r : Resp)
  deriving DecidableEq, Repr

/-- What the host agent does next (R5, R44, R69): a transaction at a byte offset from `BASE`, or `WAIT`, which reads
`STATUS` until `BUSY` reads 0. -/
inductive HostOp where
  | read (a : Nat)
  | write (a : Nat) (d : Word)
  | wait
  deriving DecidableEq, Repr

/-- Who moves (R53): the host by one transaction, the engine by one step, or the reset input `RST` (R117). -/
inductive Turn where
  | host
  | engine
  | rst
  deriving DecidableEq, Repr

/-- The state: R13's buffer, registers and hidden engine registers, then the model's own fields. `ID` and `PARAM` are
hardwired (R20, R21), `CMD` has no stored value (R24), `STATUS.BUSY` is `PHASE ≠ IDLE` (R34), `IRQ` is a function of
the state (R40): none of the five is stored. -/
structure State where
  /-- W and N of the instance: configuration, never written (R6, R7; log entry 1). -/
  params : Params
  /-- `BUF` (R18). -/
  buf : Memory
  /-- `CTRL.IE` (R22). -/
  ie : Bool
  /-- `STATUS.DONE` (R23). -/
  done : Bool
  /-- `STATUS.DROP` (R23). -/
  drop : Bool
  /-- `STATUS.VVALID` (R23). -/
  vvalid : Bool
  /-- `STATUS.SVALID` (R23). -/
  svalid : Bool
  /-- `STATUS.CMATCH` (R23). -/
  cmatch : Bool
  /-- `STATUS.ERR` (R23, R104). -/
  err : ErrCode
  /-- `LEN` (R19). -/
  len : Index
  /-- `VALUE`, read as `VALUE_LO` and `VALUE_HI` (R25, R51). -/
  value : Wide
  /-- `CONSUMED` (R26). -/
  consumed : Index
  /-- `ERRINFO` (R27). -/
  errinfo : Word
  /-- `BODY_LEN` (R28). -/
  bodyLen : Index
  /-- `CHK` (R29). -/
  chk : Word
  /-- `DIGEST` (R30). -/
  digest : Word
  /-- `SPEND0..SPEND7` (R31). -/
  spend : Vector Word 8
  /-- `VIEW0..VIEW7` (R32). -/
  view : Vector Word 8
  /-- `LCMD` (R33). -/
  lcmd : Word
  /-- `PHASE` (R34). -/
  phase : Phase
  /-- `MODE` (R35). -/
  mode : Mode
  /-- `PTR` (R36). -/
  ptr : Index
  /-- `ACC` (R37). -/
  acc : Wide
  /-- `SHIFT` (R38). -/
  shift : BitVec 7
  /-- `CNT` (R39). -/
  cnt : Index
  /-- MODEL'S OWN: what the host has still to do, next first (R5, R54; log entry 4). -/
  script : List HostOp
  /-- MODEL'S OWN: who moves next, next first; when it is empty the engine moves while a command runs, else the host
  (R53, R125; log entry 3). -/
  turns : List Turn
  /-- MODEL'S OWN: the responses the host has had, newest first (R44; log entry 4). -/
  responses : List BusResponse
  /-- MODEL'S OWN: how many free draws were taken (R118; log entry 6). -/
  draws : Nat
  deriving DecidableEq, Repr

/-- The reasons the machine stops. -/
inductive Fault where
  /-- An engine read of a buffer byte that nothing has written: R118's "model fault". Raised by the `SCAN` and
  `CHECK` steps. SAFE: the hardware goes on with an unspecified value. -/
  | unwrittenByte
  /-- An engine read at an index of `N` or more, where `BUF` has no byte (R12, R18). Raised by the `SCAN` and `CHECK`
  steps, only in states with `LEN > N`, which no run reaches. SAFE. -/
  | outsideBuffer
  deriving DecidableEq, Repr

/-- The reasons a step is refused. -/
inductive Refusal where
  /-- An instruction without a meaning; raised by the dispatcher only. No arm raises it: every row of the table has
  its meaning. SAFE. -/
  | notModelled (mnemonic : String)
  deriving DecidableEq, Repr

/-- The machine right after reset (R41, R117, R118), for the default instance (R6, R7). The model's own fields are
empty. -/
def State.reset : State where
  params := Params.standard
  buf := []
  ie := false
  done := false
  drop := false
  vvalid := false
  svalid := false
  cmatch := false
  err := .noError
  len := 0
  value := 0
  consumed := 0
  errinfo := 0
  bodyLen := 0
  chk := 0
  digest := 0
  spend := Vector.replicate 8 0
  view := Vector.replicate 8 0
  lcmd := 0
  phase := .idle
  mode := .mv
  ptr := 0
  acc := 0
  shift := 0
  cnt := 0
  script := []
  turns := []
  responses := []
  draws := 0

end Sys2Proof.Machine
end

