-- ==== Sys2Proof/Machine/Operands.lean ====
section
/-! DEFINITION. Operand forms: the byte lanes of a bus word (R49), the parts of a varint byte (R8, R67), the word forms
of keys and checksum (R29, R31, R32), the identification words (R20, R21). -/

namespace Sys2Proof.Machine

/-- The word of four bytes, the one with the lowest index in bits [7:0] (R49). -/
def wordOfBytes (b0 b1 b2 b3 : Byte) : Word := b3 ++ b2 ++ b1 ++ b0

/-- Byte lane `j` of a word, bits [8j+7:8j] (R49). -/
def laneByte (w : Word) (j : Nat) : Byte := w.extractLsb' (8 * j) 8

/-- The group `b & 0x7F` of a varint byte (R8, R71). -/
def group (b : Byte) : Nat := (b &&& 0x7F#8).toNat

/-- The continuation bit `b[7]` of a varint byte (R8, R72). -/
def continues (b : Byte) : Bool := b.getLsbD 7

/-- The contribution of a group at bit position `sh` (R71). -/
def contribution (b : Byte) (sh : Nat) : Nat := group b <<< sh

/-- The four bytes from place `j` of a byte list, as one word (R29, R49). -/
def wordAt (bs : List Byte) (j : Nat) : Word :=
  wordOfBytes (bs.getD j 0) (bs.getD (j + 1) 0) (bs.getD (j + 2) 0) (bs.getD (j + 3) 0)

/-- The eight words of a 32-byte key: key byte `j` is lane `j mod 4` of word `j div 4` (R31, R32). -/
def keyWords (bs : List Byte) : Vector Word 8 := Vector.ofFn fun i : Fin 8 => wordAt bs (4 * i.val)

/-- `ID` (R20). -/
def idWord : Word := 0x56445331

/-- `PARAM`: [6:0] = W, [7] = 0, [24:8] = N, [31:25] = 0 (R21). -/
def paramWord (p : Params) : Word := (0 : BitVec 7) ++ BitVec.ofNat 17 p.N ++ (0 : BitVec 1) ++ BitVec.ofNat 7 p.W

/-- A 17-bit register as it stands on the bus (R15). -/
def indexWord (x : Index) : Word := (0 : BitVec 15) ++ x

/-- `VALUE_LO` (R25, R51). -/
def valueLo (v : Wide) : Word := v.extractLsb' 0 32

/-- `VALUE_HI` (R25, R51). -/
def valueHi (v : Wide) : Word := v.extractLsb' 32 32

end Sys2Proof.Machine
end

