-- ==== Sys2Proof/Machine/Flags.lean ====
section
/-! DEFINITION. The flags: `STATUS` (R16, R23), `CTRL` (R22), `IRQ` (R40, R112), the error codes (R104), what a
completion does to the valid bits (R98), and the difference mask of a comparison (R91). -/

namespace Sys2Proof.Machine

/-- `STATUS.BUSY = (PHASE ≠ IDLE)` (R34). -/
def State.busy (s : State) : Bool :=
  match s.phase with
  | .idle => false
  | .decode => true
  | .scan => true
  | .check => true

/-- The numeric code of `STATUS.ERR` (R104). -/
def ErrCode.code : ErrCode → BitVec 4
  | .noError => 0
  | .malformedVarint => 1
  | .varintOverflow => 2
  | .truncatedAddress => 3
  | .checksumMismatch => 4
  | .illegalCommand => 5
  | .noSlice => 6

/-- `STATUS`: from the top, [31:12] reserved, [11:8] ERR, [7:6] reserved, CMATCH, SVALID, VVALID, DROP, DONE, BUSY
(R23). -/
def statusWord (s : State) : Word :=
  (0 : BitVec 20) ++ s.err.code ++ (0 : BitVec 2) ++ BitVec.ofBool s.cmatch ++ BitVec.ofBool s.svalid ++
    BitVec.ofBool s.vvalid ++ BitVec.ofBool s.drop ++ BitVec.ofBool s.done ++ BitVec.ofBool s.busy

/-- `CTRL`: [0] IE, the rest reads 0 (R22). -/
def ctrlWord (s : State) : Word := (0 : BitVec 31) ++ BitVec.ofBool s.ie

/-- The output `IRQ = CTRL.IE AND STATUS.DONE` (R40, R112). -/
def irq (s : State) : Bool := s.ie && s.done

/-- `VVALID` after a completion: a failed `VARINT` or `SLICE` clears it (R98). `cmd` is `decode(LCMD)`, `none` when
it is ILLEGAL. -/
def completedVvalid (cmd : Option Instr) (e : ErrCode) (v : Bool) : Bool :=
  match cmd with
  | some (.varint _) => if e = .noError then v else false
  | some .slice => if e = .noError then v else false
  | some .nop => v
  | some .chkcmp => v
  | some .clear => v
  | none => v

/-- `SVALID` after a completion: a failed `SLICE` clears it (R98). -/
def completedSvalid (cmd : Option Instr) (e : ErrCode) (v : Bool) : Bool :=
  match cmd with
  | some .slice => if e = .noError then v else false
  | some (.varint _) => v
  | some .nop => v
  | some .chkcmp => v
  | some .clear => v
  | none => v

/-- `CMATCH` after a completion: every `SLICE` clears it (R98). -/
def completedCmatch (cmd : Option Instr) (v : Bool) : Bool :=
  match cmd with
  | some .slice => false
  | some (.varint _) => v
  | some .nop => v
  | some .chkcmp => v
  | some .clear => v
  | none => v

/-- The mask `m` of R91's loop: bit `j` is set when byte `j` of `CHK` differs from byte `j` of `DIGEST`. -/
def differenceMask (chk digest : Word) : Nat :=
  (List.range Config.chkBytes).foldl
    (fun m j => if laneByte chk j = laneByte digest j then m else m ||| (1 <<< j)) 0

end Sys2Proof.Machine
end

