-- ==== Sys2Proof/Machine/Ops.lean ====
section
/-! DEFINITION. The shared operations: the buffer's bytes (R18, R58, R118), the accept of a command (R93), its completion
(R98, R109), the start of a scan (R97), dropped and invalidating writes (R94, R95), reset (R117). -/

namespace Sys2Proof.Machine

/-- The byte at an index, if it has been written (R118). -/
def Memory.read : Memory → Nat → Option Byte
  | [], _ => none
  | (k, b) :: m, a => if k = a then some b else Memory.read m a

/-- Write one byte, keeping the indices strictly rising (R50). -/
def Memory.write : Memory → Nat → Byte → Memory
  | [], a, b => [(a, b)]
  | (k, c) :: m, a, b =>
    if a < k then (a, b) :: (k, c) :: m
    else if a = k then (a, b) :: m
    else (k, c) :: Memory.write m a b

/-- The canonical form: indices strictly rising. An unlisted index reads as nothing, so no entry can equal it. -/
abbrev Memory.wf (m : Memory) : Prop := m.Pairwise fun x y => x.1 < y.1

/-- Every written byte lies in the buffer of `n` bytes (R18). -/
abbrev Memory.within (n : Nat) (m : Memory) : Prop := ∀ c ∈ m, c.1 < n

/-- Write the four bytes of a word at `i` (R50). -/
def Memory.writeWord (m : Memory) (i : Nat) (d : Word) : Memory :=
  (((m.write i (laneByte d 0)).write (i + 1) (laneByte d 1)).write (i + 2) (laneByte d 2)).write (i + 3) (laneByte d 3)

/-- `MemRead(i, 1)`, the engine's only memory primitive (R58): a byte that does not exist or was not written is a
model fault (R118). -/
def readByte (s : State) (i : Nat) : Except Fault Byte :=
  if s.params.N ≤ i then .error .outsideBuffer
  else
    match s.buf.read i with
    | some b => .ok b
    | none => .error .unwrittenByte

/-- The bytes `BUF[i .. i+n)` (R11, R88). -/
def readBytes (s : State) (i : Nat) : Nat → Except Fault (List Byte)
  | 0 => .ok []
  | n + 1 =>
    match readByte s i with
    | .error f => .error f
    | .ok b =>
      match readBytes s (i + 1) n with
      | .error f => .error f
      | .ok bs => .ok (b :: bs)

/-- What a host read of one buffer byte gives: its value, or for an unwritten byte the free draw `n` (R50, R118). -/
def hostByte (s : State) (i n : Nat) : Byte :=
  match s.buf.read i with
  | some b => b
  | none => Config.freeByte n

/-- Whether a buffer word has an unwritten byte, so that a host read of it draws (R118). -/
def wordHasUnwritten (s : State) (i : Nat) : Bool :=
  (s.buf.read i).isNone || (s.buf.read (i + 1)).isNone || (s.buf.read (i + 2)).isNone || (s.buf.read (i + 3)).isNone

/-- The buffer word at byte index `i` as a host read returns it (R50). -/
def hostWord (s : State) (i : Nat) : Word :=
  wordOfBytes (hostByte s i s.draws) (hostByte s (i + 1) (s.draws + 1)) (hostByte s (i + 2) (s.draws + 2))
    (hostByte s (i + 3) (s.draws + 3))

/-- A host read of a buffer word changes nothing (R52) but the model's count of draws, where it drew. -/
def afterHostWord (s : State) (i : Nat) : State :=
  if wordHasUnwritten s i then { s with draws := s.draws + 4 } else s

/-- The command `LCMD` holds, `none` when it is ILLEGAL: `decode(LCMD)` of R98. -/
def latched (s : State) : Option Instr := (decode s.lcmd).toOption

/-- `complete(e, info)` (R98), the block's only form of error entry (R109): the command `cmd` ends. `cmd` is
`decode(LCMD)` (log entry 10). -/
def complete (cmd : Option Instr) (e : ErrCode) (info : Nat) (s : State) : State :=
  { s with
    err := e
    errinfo := BitVec.ofNat 32 info
    vvalid := completedVvalid cmd e s.vvalid
    svalid := completedSvalid cmd e s.svalid
    cmatch := completedCmatch cmd s.cmatch
    phase := .idle
    done := true }

/-- The accept of a command word (R93). It is also the only way out of an error besides reset: it sets `ERR` and
`ERRINFO` to 0 (R110). -/
def accept (c : Word) (s : State) : State :=
  { s with lcmd := c, phase := .decode, done := false, err := .noError, errinfo := 0 }

/-- A write that arrives while a command runs is dropped (R94). -/
def dropWrite (s : State) : State := { s with drop := true }

/-- An accepted write of `LEN` or of the buffer window invalidates the slice (R95). -/
def invalidate (s : State) : State := { s with svalid := false, cmatch := false }

/-- DecodeStep's entry into `SCAN` for `VARINT` and `SLICE` (R97). -/
def startScan (m : Mode) (off : Nat) (s : State) : State :=
  { s with mode := m, ptr := BitVec.ofNat 17 off, acc := 0, shift := 0, cnt := 0, phase := .scan }

/-- `ClearAll` (R100). -/
def clearAll (s : State) : State :=
  { s with
    value := 0
    consumed := 0
    bodyLen := 0
    chk := 0
    spend := Vector.replicate 8 0
    view := Vector.replicate 8 0
    drop := false
    vvalid := false
    svalid := false
    cmatch := false }

/-- The assertion of `RST` (R117): every piece of the block's state takes its value of R41, every byte of `BUF` becomes
unwritten (R118). The instance's parameters and the host's side stay (log entry 7). -/
def resetBlock (s : State) : State :=
  { State.reset with
    params := s.params
    script := s.script
    turns := s.turns
    responses := s.responses
    draws := s.draws }

end Sys2Proof.Machine
end

