-- ==== Sys2Proof/Machine/Bus.lean ====
section
/-! DEFINITION. The register interface: the map (R43), transactions (R44 to R47, R50 to R52), accepted, dropped and
invalidating writes (R93 to R95), and the host agent's move (R53, R69). -/

namespace Sys2Proof.Machine

/-- What an offset of the register space names (R43). -/
inductive Reg where
  | id
  | param
  | ctrl
  | status
  | cmd
  | len
  | valueLo
  | valueHi
  | consumed
  | errinfo
  | bodyLen
  | chk
  | digest
  | spend (i : Fin 8)
  | view (i : Fin 8)
  /-- Word `k` of the buffer window. -/
  | bufWord (k : Nat)
  deriving DecidableEq, Repr

/-- The single registers of R43 by offset. -/
def regTable : List (Nat × Reg) :=
  [(0x000, .id), (0x004, .param), (0x008, .ctrl), (0x00C, .status), (0x010, .cmd), (0x014, .len),
   (0x018, .valueLo), (0x01C, .valueHi), (0x020, .consumed), (0x024, .errinfo), (0x028, .bodyLen),
   (0x02C, .chk), (0x030, .digest)]

/-- The first offset of the buffer window (R43, R50). -/
def windowBase : Nat := 0x1000

/-- The register at an aligned offset, for a buffer of `n` bytes; `none` where R43 answers `SLVERR`. -/
def regAt (n a : Nat) : Option Reg :=
  if a < 0x040 then regTable.lookup a
  else if a < 0x060 then some (.spend (Fin.ofNat 8 ((a - 0x040) / 4)))
  else if a < 0x080 then some (.view (Fin.ofNat 8 ((a - 0x060) / 4)))
  else if windowBase ≤ a ∧ a < windowBase + n then some (.bufWord ((a - windowBase) / 4))
  else none

/-- The register a transaction at offset `a` reaches: checks 1 and 2 of R47. -/
def target (n a : Nat) : Option Reg := if a % 4 = 0 then regAt n a else none

/-- The offset of a register (R43), by which a host names it (R69). -/
def Reg.offset : Reg → Nat
  | .id => 0x000
  | .param => 0x004
  | .ctrl => 0x008
  | .status => 0x00C
  | .cmd => 0x010
  | .len => 0x014
  | .valueLo => 0x018
  | .valueHi => 0x01C
  | .consumed => 0x020
  | .errinfo => 0x024
  | .bodyLen => 0x028
  | .chk => 0x02C
  | .digest => 0x030
  | .spend i => 0x040 + 4 * i.val
  | .view i => 0x060 + 4 * i.val
  | .bufWord k => windowBase + 4 * k

/-- The registers of access RO: check 3 of R47. -/
def Reg.readOnly : Reg → Bool
  | .id => true
  | .param => true
  | .ctrl => false
  | .status => true
  | .cmd => false
  | .len => false
  | .valueLo => true
  | .valueHi => true
  | .consumed => true
  | .errinfo => true
  | .bodyLen => true
  | .chk => true
  | .digest => false
  | .spend _ => true
  | .view _ => true
  | .bufWord _ => false

/-- The writes that are dropped while a command runs (R94); the register is writable. -/
def Reg.droppable : Reg → Bool
  | .cmd => true
  | .len => true
  | .digest => true
  | .bufWord _ => true
  | .ctrl => false
  | .id => false
  | .param => false
  | .status => false
  | .valueLo => false
  | .valueHi => false
  | .consumed => false
  | .errinfo => false
  | .bodyLen => false
  | .chk => false
  | .spend _ => false
  | .view _ => false

/-- The present value of a register (R52); `CMD` reads 0 (R24). -/
def readReg (r : Reg) (s : State) : Word :=
  match r with
  | .id => idWord
  | .param => paramWord s.params
  | .ctrl => ctrlWord s
  | .status => statusWord s
  | .cmd => 0
  | .len => indexWord s.len
  | .valueLo => valueLo s.value
  | .valueHi => valueHi s.value
  | .consumed => indexWord s.consumed
  | .errinfo => s.errinfo
  | .bodyLen => indexWord s.bodyLen
  | .chk => s.chk
  | .digest => s.digest
  | .spend i => s.spend[i]
  | .view i => s.view[i]
  | .bufWord k => hostWord s (4 * k)

/-- No read has a side effect (R52); a read of unwritten buffer bytes counts its draws in the model's own field. -/
def afterRead (r : Reg) (s : State) : State :=
  match r with
  | .bufWord k => afterHostWord s (4 * k)
  | .id => s
  | .param => s
  | .ctrl => s
  | .status => s
  | .cmd => s
  | .len => s
  | .valueLo => s
  | .valueHi => s
  | .consumed => s
  | .errinfo => s
  | .bodyLen => s
  | .chk => s
  | .digest => s
  | .spend _ => s
  | .view _ => s

/-- The effect of a taken write: `CTRL` (R22), `CMD` (R93), `LEN` and the window (R19, R50, R95), `DIGEST` (R30).
A read-only register is never written (R47). -/
def applyWrite (r : Reg) (d : Word) (s : State) : State :=
  match r with
  | .ctrl => { s with ie := d.getLsbD 0 }
  | .cmd => accept d s
  | .len => invalidate { s with len := d.setWidth 17 }
  | .digest => { s with digest := d }
  | .bufWord k => invalidate { s with buf := s.buf.writeWord (4 * k) d }
  | .id => s
  | .param => s
  | .status => s
  | .valueLo => s
  | .valueHi => s
  | .consumed => s
  | .errinfo => s
  | .bodyLen => s
  | .chk => s
  | .spend _ => s
  | .view _ => s

/-- Checks 3 and 4 of R47. -/
def writeRefused (r : Reg) (d : Word) (s : State) : Bool :=
  r.readOnly || (r == .len && decide (s.params.N < d.toNat))

/-- `BusRead(a)` (R44): the response with its word, and the state. -/
def busRead (a : Nat) (s : State) : BusResponse × State :=
  match target s.params.N a with
  | none => (.read .slverr 0, s)
  | some r => (.read .ok (readReg r s), afterRead r s)

/-- `BusWrite(a, d)` (R44). -/
def busWrite (a : Nat) (d : Word) (s : State) : BusResponse × State :=
  match target s.params.N a with
  | none => (.write .slverr, s)
  | some r =>
    if writeRefused r d s then (.write .slverr, s)
    else if s.busy && r.droppable then (.write .ok, dropWrite s)
    else (.write .ok, applyWrite r d s)

/-- The host notes a response. -/
def note (x : BusResponse × State) : State := { x.2 with responses := x.1 :: x.2.responses }

/-- The host's move (R53): one transaction of its script. `WAIT` is a `BusRead(STATUS)` that stays in the script until
bit 0 reads 0 (R69). A host with nothing left to do makes no move. -/
def hostStep (s : State) : State :=
  match s.script with
  | [] => s
  | .read a :: rest => note (busRead a { s with script := rest })
  | .write a d :: rest => note (busWrite a d { s with script := rest })
  | .wait :: rest =>
    if s.busy then note (busRead (Reg.offset .status) s)
    else note (busRead (Reg.offset .status) { s with script := rest })

end Sys2Proof.Machine
end

