-- ==== Sys2Proof/Machine/Control.lean ====
section
/-! DEFINITION. The housekeeping commands `NOP` (R99) and `CLEAR` (R100), and the completion of an illegal word (R101). -/

namespace Sys2Proof.Machine

/-- `NOP` (R99). -/
def execNop (s : State) : Host.Outcome State Fault Refusal := .next (complete (some .nop) .noError 0 s)

/-- `CLEAR` (R100). -/
def execClear (s : State) : Host.Outcome State Fault Refusal :=
  .next (complete (some .clear) .noError 0 (clearAll s))

/-- The DecodeStep of an illegal word (R101): `ILLEGAL_COMMAND`, with the word in `ERRINFO`. -/
def illegalStep (s : State) : Host.Outcome State Fault Refusal :=
  .next (complete none .illegalCommand s.lcmd.toNat s)

end Sys2Proof.Machine
end

