-- ==== Sys2Proof/Machine/Varint.lean ====
section
/-! DEFINITION. Varint decode: the normative function (R70), the engine step (R78), the command `VARINT` (R79), the
test-side encoder (R80). -/

namespace Sys2Proof.Machine

/-- The result of a parse: `Ok(value, count)` or `Err(code, info)` (R70). -/
inductive ParseResult where
  | ok (value count : Nat)
  | err (code : ErrCode) (info : Nat)
  deriving DecidableEq, Repr

/-- The loop of R70 with `acc` and `k`. `fuel` bounds its rounds: R77 says at most `LEN - off + 1`; with no fuel left
the index is past `LEN`, which is R73's case. A byte that was not written is a model fault (R118). -/
def decodeVarintFrom (s : State) (off acc k : Nat) : Nat → Except Fault ParseResult
  | 0 => .ok (.err .malformedVarint (off + k))
  | fuel + 1 =>
    if s.len.toNat ≤ off + k then .ok (.err .malformedVarint (off + k))
    else
      match readByte s (off + k) with
      | .error f => .error f
      | .ok b =>
        if 2 ^ s.params.W ≤ contribution b (7 * k) then .ok (.err .varintOverflow (off + k))
        else if continues b then decodeVarintFrom s off (acc ||| contribution b (7 * k)) (k + 1) fuel
        else .ok (.ok (acc ||| contribution b (7 * k)) (k + 1))

/-- `DecodeVarint(BUF, LEN, off, W)` (R70), of the state's `BUF`, `LEN` and `W`. -/
def decodeVarint (s : State) (off : Nat) : Except Fault ParseResult :=
  decodeVarintFrom s off 0 0 (s.len.toNat - off + 1)

/-- The scan registers after one more byte (R78). -/
def consumeByte (b : Byte) (s : State) : State :=
  { s with
    acc := BitVec.ofNat 64 (s.acc.toNat ||| contribution b s.shift.toNat)
    cnt := BitVec.ofNat 17 (s.cnt.toNat + 1)
    ptr := BitVec.ofNat 17 (s.ptr.toNat + 1)
    shift := BitVec.ofNat 7 (min (s.shift.toNat + 7) s.params.W) }

/-- The result registers of a successful parse: `VALUE <- v ; CONSUMED <- n ; VVALID <- 1` (R78, R79). -/
def latchValue (v n : Nat) (s : State) : State :=
  { s with value := BitVec.ofNat 64 v, consumed := BitVec.ofNat 17 n, vvalid := true }

/-- The end of a scan whose last byte was consumed: a `VARINT` completes, a `SLICE` goes on to `CHECK` (R78). -/
def finishScan (s : State) : State :=
  match s.mode with
  | .mv => complete (latched s) .noError 0 (latchValue s.acc.toNat s.cnt.toNat s)
  | .ms => { s with phase := .check }

/-- `ScanStep` (R78): at most one byte is consumed. -/
def scanStep (s : State) : Host.Outcome State Fault Refusal :=
  if s.len.toNat ≤ s.ptr.toNat then .next (complete (latched s) .malformedVarint s.ptr.toNat s)
  else
    match readByte s s.ptr.toNat with
    | .error f => .fault f
    | .ok b =>
      if 2 ^ s.params.W ≤ contribution b s.shift.toNat then
        .next (complete (latched s) .varintOverflow s.ptr.toNat s)
      else if continues b then .next (consumeByte b s)
      else .next (finishScan (consumeByte b s))

/-- `VARINT off` (R79): its DecodeStep (R97). It starts the scan at `off`; each `SCAN` step then takes one byte
(`scanStep`), and the last one completes the command. -/
def execVarint (off : Nat) (s : State) : Host.Outcome State Fault Refusal := .next (startScan .mv off s)

/-- The loop of R80; `fuel` bounds its rounds. -/
def varintEncodeFrom : Nat → Nat → List Byte
  | 0, _ => []
  | fuel + 1, v =>
    if v >>> 7 = 0 then [BitVec.ofNat 8 (v &&& 0x7F)]
    else BitVec.ofNat 8 ((v &&& 0x7F) ||| 0x80) :: varintEncodeFrom fuel (v >>> 7)

/-- `VarintEncode(v)`, a test-side function (R80); the block has no such command. -/
def varintEncode (v : Nat) : List Byte := varintEncodeFrom (v + 1) v

end Sys2Proof.Machine
end

