-- ==== Sys2Proof/Machine/Slice.lean ====
section
/-! DEFINITION. Field slicing: the normative function (R82), the engine step (R88), the command `SLICE` (R89); the
checksum comparison `CHKCMP` (R91). -/

namespace Sys2Proof.Machine

/-- What a successful `SliceAddress` returns (R82). -/
structure Slices where
  pfx : Nat
  p : Nat
  spend : List Byte
  view : List Byte
  bodyLen : Nat
  chk : List Byte
  deriving DecidableEq, Repr

/-- The result of `SliceAddress`: `Ok(...)` or `Err(code, info)` (R82). -/
inductive SliceResult where
  | ok (x : Slices)
  | err (code : ErrCode) (info : Nat)
  deriving DecidableEq, Repr

/-- The body length `p + 64` (R8). -/
def bodyLength (p : Nat) : Nat := p + 2 * Config.keyBytes

/-- The minimum decoded length `p + 68` (R8, R83). -/
def requiredLength (p : Nat) : Nat := bodyLength p + Config.chkBytes

/-- The 68 bytes from `p` cut into keys and checksum (R82 steps 3 to 6). -/
def cutSlices (v p : Nat) (bs : List Byte) : Slices where
  pfx := v
  p := p
  spend := bs.take Config.keyBytes
  view := (bs.drop Config.keyBytes).take Config.keyBytes
  bodyLen := bodyLength p
  chk := (bs.drop (2 * Config.keyBytes)).take Config.chkBytes

/-- `SliceAddress(BUF, LEN, W)` (R82), of the state's `BUF`, `LEN` and `W`. -/
def sliceAddress (s : State) : Except Fault SliceResult :=
  match decodeVarint s 0 with
  | .error f => .error f
  | .ok (.err e info) => .ok (.err e info)
  | .ok (.ok v p) =>
    if s.len.toNat < requiredLength p then .ok (.err .truncatedAddress (requiredLength p))
    else
      match readBytes s p 68 with
      | .error f => .error f
      | .ok bs => .ok (.ok (cutSlices v p bs))

/-- The result registers of a successful `SLICE`: `VALUE` and `CONSUMED` are the prefix and its length (R88, R89). -/
def latchSlices (x : Slices) (s : State) : State :=
  { latchValue x.pfx x.p s with
    spend := keyWords x.spend
    view := keyWords x.view
    chk := wordAt x.chk 0
    bodyLen := BitVec.ofNat 17 x.bodyLen
    svalid := true }

/-- `CheckStep` (R88). Its bytes are `BUF[p .. p+68)`; one that was not written is a model fault and nothing is latched
(R118). -/
def checkStep (s : State) : Host.Outcome State Fault Refusal :=
  if s.len.toNat < requiredLength s.cnt.toNat then
    .next (complete (latched s) .truncatedAddress (requiredLength s.cnt.toNat) s)
  else
    match readBytes s s.cnt.toNat 68 with
    | .error f => .fault f
    | .ok bs =>
      .next (complete (latched s) .noError 0 (latchSlices (cutSlices s.acc.toNat s.cnt.toNat bs) s))

/-- `SLICE` (R89): its DecodeStep (R97). It starts the scan at 0; the `SCAN` steps parse the prefix, and `checkStep`
checks the length and latches the slices. -/
def execSlice (s : State) : Host.Outcome State Fault Refusal := .next (startScan .ms 0 s)

/-- `CHKCMP` (R91), one engine step. -/
def execChkcmp (s : State) : Host.Outcome State Fault Refusal :=
  if s.svalid = false then .next (complete (some .chkcmp) .noSlice 0 { s with cmatch := false })
  else if differenceMask s.chk s.digest = 0 then .next (complete (some .chkcmp) .noError 0 { s with cmatch := true })
  else
    .next (complete (some .chkcmp) .checksumMismatch (differenceMask s.chk s.digest) { s with cmatch := false })

end Sys2Proof.Machine
end

