-- ==== Sys2Proof/Machine/Dispatch.lean ====
section
/-! DEFINITION. The DecodeStep of a legal command (R97): one arm for each command. -/

namespace Sys2Proof.Machine

def exec (i : Instr) (s : State) : Host.Outcome State Fault Refusal :=
  match i with
  | .nop => Sys2Proof.Machine.execNop s
  | .varint off => Sys2Proof.Machine.execVarint off s
  | .slice => Sys2Proof.Machine.execSlice s
  | .chkcmp => Sys2Proof.Machine.execChkcmp s
  | .clear => Sys2Proof.Machine.execClear s

end Sys2Proof.Machine
end

