-- ==== Sys2Proof/Machine/Step.lean ====
section
/-! DEFINITION. The global step (R53): one engine step (R96), one host transaction, or the assertion of `RST` (R117). -/

namespace Sys2Proof.Machine

/-- The engine's step, chosen by `PHASE` (R96, R97). In `IDLE` the engine has none, and nothing changes. -/
def engineStep (s : State) : Host.Outcome State Fault Refusal :=
  match s.phase with
  | .idle => .next s
  | .decode =>
    match decode s.lcmd with
    | .ok i => exec i s
    | .error _ => illegalStep s
  | .scan => scanStep s
  | .check => checkStep s

/-- The global step (R53): `turns` says who moves; when it is empty, the engine while a command runs, else the host
(R125; log entry 3). -/
def step (s : State) : Host.Outcome State Fault Refusal :=
  match s.turns with
  | .host :: rest => .next (hostStep { s with turns := rest })
  | .engine :: rest => engineStep { s with turns := rest }
  | .rst :: rest => .next (resetBlock { s with turns := rest })
  | [] => if s.busy then engineStep s else .next (hostStep s)

/-- The state with a command word where the engine takes its next command: accepted into `LCMD` (R93), the engine to
move next (log entry 13). A command is one 32-bit word (R66). -/
def State.withFetchWord (s : State) (nbits w : Nat) : State :=
  let t := accept (BitVec.ofNat 32 (w % 2 ^ nbits)) s
  { t with turns := .engine :: s.turns }

end Sys2Proof.Machine
end

