-- ==== Sys2Proof/Machine/Assembler.lean ====
section
/-! DEFINITION. The assembler syntax of commands (R68) and the host statements with their expansions (R69). A line is a
list of characters; its words are separated by spaces (log entry 15), and letter case is ignored in the whole line
(log entry 18). -/

namespace Sys2Proof.Machine

/-- A letter's capital. Mnemonics are case-insensitive (R68); that the whole line is, so that `0X` and `.WORD` are
accepted beside the rule's `0x` and `.word`, is the model's choice (log entry 18, DESIGN CHOICE). -/
def capital (c : Char) : Char := if 97 ≤ c.toNat ∧ c.toNat ≤ 122 then Char.ofNat (c.toNat - 32) else c

/-- The words of a line, all in capitals (log entry 18): maximal runs without a space (log entry 15). -/
def wordsOf : List Char → List Char → List (List Char)
  | [], w => if w = [] then [] else [w.reverse]
  | c :: cs, w =>
    if c = ' ' then (if w = [] then wordsOf cs [] else w.reverse :: wordsOf cs [])
    else wordsOf cs (capital c :: w)

/-- The value of a digit. -/
def digitValue (c : Char) : Nat := if c.toNat ≤ 57 then c.toNat - 48 else c.toNat - 55

/-- Whether a character is a digit of base 10 or 16. -/
def isDigitOf (base : Nat) (c : Char) : Bool :=
  (decide (48 ≤ c.toNat) && decide (c.toNat ≤ 57)) ||
    (base == 16 && decide (65 ≤ c.toNat) && decide (c.toNat ≤ 70))

/-- A number of at least one digit. -/
def digits (base : Nat) (cs : List Char) : Option Nat :=
  if cs ≠ [] ∧ cs.all (isDigitOf base) then some (cs.foldl (fun n c => base * n + digitValue c) 0) else none

/-- A number in decimal or `0x` hex (R68), its letters put in capitals by `wordsOf`, so that `0X` is accepted too (log
entry 18). -/
def number : List Char → Option Nat
  | '0' :: 'X' :: cs => digits 16 cs
  | cs => digits 10 cs

/-- The command word of one line (R68); `none` for a line that is not of the syntax. The number of `.word` is read as an
offset is, in decimal or hex (log entry 18). -/
def assemble (line : List Char) : Option Word :=
  match wordsOf line [] with
  | [['N', 'O', 'P']] => some (encode .nop)
  | [['S', 'L', 'I', 'C', 'E']] => some (encode .slice)
  | [['C', 'H', 'K', 'C', 'M', 'P']] => some (encode .chkcmp)
  | [['C', 'L', 'E', 'A', 'R']] => some (encode .clear)
  | [['V', 'A', 'R', 'I', 'N', 'T'], n] =>
    match number n with
    | some off => if off ≤ 65535 then some (encode (.varint off)) else none
    | none => none
  | [['.', 'W', 'O', 'R', 'D'], n] =>
    match number n with
    | some w => if w < 2 ^ 32 then some (BitVec.ofNat 32 w) else none
    | none => none
  | _ => none

/-- The host-program statements (R69). -/
inductive HostStmt where
  | wr (r : Reg) (d : Word)
  | rd (r : Reg)
  | loadBuf (bs : List Byte)
  | run (c : Word)
  | wait
  | setDig (d : Word)
  deriving DecidableEq, Repr

/-- The bus transactions of a statement (R69). -/
def HostStmt.expand : HostStmt → List HostOp
  | .wr r d => [.write r.offset d]
  | .rd r => [.read r.offset]
  | .loadBuf bs =>
    (List.range ((bs.length + 3) / 4)).map (fun k => HostOp.write (windowBase + 4 * k) (wordAt bs (4 * k))) ++
      [.write (Reg.offset .len) (BitVec.ofNat 32 bs.length)]
  | .run c => [.write (Reg.offset .cmd) c, .wait]
  | .wait => [.wait]
  | .setDig d => [.write (Reg.offset .digest) d]

/-- The script of a host program. -/
def expandProgram (p : List HostStmt) : List HostOp := p.flatMap HostStmt.expand

end Sys2Proof.Machine
end

