-- ==== Sys2Proof/Machine/Effect.lean ====
section
/-! DEFINITION. The architectural effect of `VARINT` (R79) and `SLICE` (R89) at completion, written from those rules'
pseudocode and the functions of R70 and R82, without the engine's steps. The engine is held against them by the
statements; `step` does not call them. -/

namespace Sys2Proof.Machine

/-- The end of R79's and R89's pseudocode: `ERR <- e ; ERRINFO <- info ; BUSY <- 0 ; DONE <- 1`. -/
def endCommand (e : ErrCode) (info : Nat) (s : State) : State :=
  { s with err := e, errinfo := BitVec.ofNat 32 info, phase := .idle, done := true }

/-- R79: the state after `VARINT off`. -/
def varintEffect (off : Nat) (s : State) : Except Fault State :=
  match decodeVarint s off with
  | .error f => .error f
  | .ok (.ok v n) =>
    .ok (endCommand .noError 0
      { s with value := BitVec.ofNat 64 v, consumed := BitVec.ofNat 17 n, vvalid := true })
  | .ok (.err e info) => .ok (endCommand e info { s with vvalid := false })

/-- R89: the state after `SLICE`. -/
def sliceEffect (s : State) : Except Fault State :=
  match sliceAddress s with
  | .error f => .error f
  | .ok (.ok x) =>
    .ok (endCommand .noError 0
      { s with
        value := BitVec.ofNat 64 x.pfx
        consumed := BitVec.ofNat 17 x.p
        spend := keyWords x.spend
        view := keyWords x.view
        chk := wordAt x.chk 0
        bodyLen := BitVec.ofNat 17 x.bodyLen
        vvalid := true
        svalid := true
        cmatch := false })
  | .ok (.err e info) =>
    .ok (endCommand e info { s with vvalid := false, svalid := false, cmatch := false })

end Sys2Proof.Machine
end

