-- ==== Sys2Proof/Safety.lean ====
section
/-! DEFINITION. The terms claims use: the invariant of the block (R17, R19, R23, R25, R36 to R39, R77, R78), the meaning
of `SVALID` (R23), the host's duty (R119, R126), runs of the engine (R96), the end of a run (R127). -/

namespace Sys2Proof.Machine

/-- `k` engine steps, nothing between them (R96). -/
def engineRun : Nat → State → Host.Outcome State Fault Refusal
  | 0, s => .next s
  | k + 1, s =>
    match engineStep s with
    | .next t => engineRun k t
    | .fault f => .fault f
    | .refused r => .refused r

/-- The hidden engine registers hold a scan that started at `off` and has consumed `CNT` bytes (R78). -/
structure ScanAt (s : State) (off : Nat) : Prop where
  off_le : off ≤ 65535
  ptr_eq : s.ptr.toNat = off + s.cnt.toNat
  inside : s.cnt.toNat = 0 ∨ s.ptr.toNat ≤ s.len.toNat
  shift_eq : s.shift.toNat = min (7 * s.cnt.toNat) s.params.W
  acc_lt : s.acc.toNat < 2 ^ (7 * s.cnt.toNat)
  command : (s.mode = .mv ∧ latched s = some (.varint off)) ∨ (s.mode = .ms ∧ off = 0 ∧ latched s = some .slice)

/-- What `ERRINFO` can hold beside each code (R106). -/
def errinfoFits (s : State) : Prop :=
  match s.err with
  | .noError => s.errinfo = 0
  | .malformedVarint => s.errinfo.toNat ≤ max 65535 s.params.N
  | .varintOverflow => s.errinfo.toNat < s.params.N
  | .truncatedAddress => 69 ≤ s.errinfo.toNat
  | .checksumMismatch => 1 ≤ s.errinfo.toNat ∧ s.errinfo.toNat ≤ 15
  | .illegalCommand => s.errinfo = s.lcmd ∧ legal s.lcmd = false
  | .noSlice => s.errinfo = 0

/-- The invariant of the block: what the rules say of every register in every run. -/
structure BlockInv (s : State) : Prop where
  buf_wf : s.buf.wf
  buf_within : s.buf.within s.params.N
  len_le : s.len.toNat ≤ s.params.N
  value_lt : s.value.toNat < 2 ^ s.params.W
  acc_lt : s.acc.toNat < 2 ^ s.params.W
  shift_le : s.shift.toNat ≤ s.params.W
  consumed_pos : s.vvalid = true → 1 ≤ s.consumed.toNat
  cmatch_svalid : s.cmatch = true → s.svalid = true
  busy_clear : s.busy = true → s.done = false ∧ s.err = .noError
  errinfo_fits : errinfoFits s
  scanning : s.phase = .scan → ∃ off, ScanAt s off
  checking : s.phase = .check → ScanAt s 0 ∧ s.mode = .ms ∧ 1 ≤ s.cnt.toNat

/-- The scan registers agree with the function: what is left of the parse gives the result of the whole (R78). -/
def ScanAgrees (s : State) : Prop :=
  (s.phase = .scan → ∀ off, ScanAt s off →
    decodeVarint s off = decodeVarintFrom s off s.acc.toNat s.cnt.toNat (s.len.toNat - s.ptr.toNat + 1)) ∧
  (s.phase = .check → decodeVarint s 0 = .ok (.ok s.acc.toNat s.cnt.toNat))

/-- The meaning of `SVALID` (R23): `BODY_LEN`, `CHK`, `SPEND0..7` and `VIEW0..7` hold the slices of a successful
`SLICE` of the present `BUF` and `LEN`. -/
def SliceCurrent (s : State) : Prop :=
  s.svalid = true → ∃ x, sliceAddress s = .ok (.ok x) ∧ s.bodyLen.toNat = x.bodyLen ∧ s.chk = wordAt x.chk 0 ∧
    s.spend = keyWords x.spend ∧ s.view = keyWords x.view

/-- The host's duty (R119, R126): every byte of `BUF[0 .. LEN)` was written. -/
def InputWritten (s : State) : Prop := ∀ i, i < s.len.toNat → (s.buf.read i).isSome = true

/-- Byte `i` of the buffer as a number, 0 where it is unwritten. -/
def byteAt (s : State) (i : Nat) : Nat := ((s.buf.read i).getD 0).toNat

/-- The sum of R71: the low 7 bits of the `j`-th byte from `off` at bit position `7*j`, for the first `n` bytes. -/
def groupSum (s : State) (off n : Nat) : Nat := ∑ j ∈ Finset.range n, byteAt s (off + j) % 128 * 2 ^ (7 * j)

/-- The parse from `off` reads byte `i` (R70, R77): it lies in the input, every byte before it has bit 7 set, and the
value of the bytes before it fits. -/
def ParseReads (s : State) (off i : Nat) : Prop :=
  off ≤ i ∧ i < s.len.toNat ∧ (∀ j, off ≤ j → j < i → ∃ b, s.buf.read j = some b ∧ 128 ≤ b.toNat) ∧
    groupSum s off (i - off) < 2 ^ s.params.W

/-- `SLICE` reads byte `i` (R58, R82): a byte of the prefix, or one of the 68 after it where the input holds them. -/
def SliceReads (s : State) (i : Nat) : Prop :=
  ParseReads s 0 i ∨ ∃ v p, decodeVarint s 0 = .ok (.ok v p) ∧ p + 68 ≤ s.len.toNat ∧ p ≤ i ∧ i < p + 68

/-- The command in `LCMD` reads byte `i`. `NOP`, `CLEAR`, `CHKCMP` and an illegal word read no byte (R58, R97). -/
def CommandReads (s : State) (i : Nat) : Prop :=
  (∃ off, decode s.lcmd = .ok (.varint off) ∧ ParseReads s off i) ∨ (decode s.lcmd = .ok .slice ∧ SliceReads s i)

/-- The bits `[8(j mod 4)+7 : 8(j mod 4)]` of word `j div 4`: key byte `j` as R31 and R32 place it. -/
def keyByteBits (k : Vector Word 8) (j : Nat) (h : j < 32) : Byte :=
  (k[j / 4]'(by omega)).extractLsb' (8 * (j % 4)) 8

/-- The end of a run (R127): the host has nothing left to do and the engine is idle. -/
def RunEnded (s : State) : Prop := s.script = [] ∧ s.phase = .idle

/-- Two states that differ at most in the fields a host move changes while a command runs: `CTRL.IE`, `STATUS.DROP` and
the host's own fields (R52, R94). -/
def SameButHostSide (s t : State) : Prop :=
  t = { s with
    ie := t.ie
    drop := t.drop
    script := t.script
    turns := t.turns
    responses := t.responses
    draws := t.draws }

/-- Two states that differ at most in the hidden scan registers (R35 to R39). -/
def SameButScan (s t : State) : Prop :=
  t = { s with mode := t.mode, ptr := t.ptr, acc := t.acc, shift := t.shift, cnt := t.cnt }

/-- Two states that differ at most in `STATUS`, `ERRINFO` and the hidden engine registers (R109). -/
def SameButStatus (s t : State) : Prop :=
  t = { s with
    done := t.done
    drop := t.drop
    vvalid := t.vvalid
    svalid := t.svalid
    cmatch := t.cmatch
    err := t.err
    errinfo := t.errinfo
    lcmd := t.lcmd
    phase := t.phase
    mode := t.mode
    ptr := t.ptr
    acc := t.acc
    shift := t.shift
    cnt := t.cnt }

end Sys2Proof.Machine
end

