-- ==== Sys2Proof/Certificates/Slice0/Obligations.lean ====
section
/-! DEFINITION. The statements for the provers. -/

open Sys2Proof Sys2Proof.Machine

/-! ## Encoding (30_encoding.md) -/

/-- Decoding the word of a well-formed command gives the command back, every offset included (R59, R60, R65). -/
def Obligations.DecodeEncodeRoundTrip : Prop :=
  ∀ i : Instr, i.wf = true → decode (encode i) = .ok i

/-- A word that decodes is the word of the command it decodes to, and that command is well formed (R65). -/
def Obligations.EncodeDecodeAgree : Prop :=
  ∀ (c : Word) (i : Instr), decode c = .ok i → i.wf = true ∧ encode i = c

/-- R63: `legal(c)` is the formula of the rule, the legal words are the listed ones, 65536 + 4 in number; and the decoder
accepts exactly them. -/
def Obligations.LegalWordsAreTheListedOnes : Prop :=
  (∀ c : Word, legal c = true ↔
    c.extractLsb' 4 12 = 0 ∧
      (c.extractLsb' 0 4 = 1 ∨
        ((c.extractLsb' 0 4).toNat ∈ [0, 2, 3, 4] ∧ c.extractLsb' 16 16 = 0))) ∧
  (∀ c : Word, legal c = true ↔
    c = 0 ∨ (∃ x : BitVec 16, c = x ++ (1 : BitVec 16)) ∨ c = 2 ∨ c = 3 ∨ c = 4) ∧
  Set.ncard {c : Word | legal c = true} = 65536 + 4 ∧
  (∀ c : Word, legal c = true ↔ ∃ i, decode c = .ok i)

/-- Words written out from R60, R68 and R101 decode to what they stand for. -/
def Obligations.SampleWordsDecode : Prop :=
  decode 0x00000000 = .ok .nop ∧ decode 0x00010001 = .ok (.varint 1) ∧ decode 0xFFFF0001 = .ok (.varint 65535) ∧
  decode 0x00000002 = .ok .slice ∧ decode 0x00000003 = .ok .chkcmp ∧ decode 0x00000004 = .ok .clear ∧
  decode 0x00000005 = .error .reservedOp ∧ decode 0x00000010 = .error .reservedBits ∧
  decode 0x00010002 = .error .nonzeroOffset ∧ decode 0xFFFFFFFF = .error .reservedBits

/-- R68: lines of the assembler syntax give the words of the table. That spaces separate the words of a line, and that
letter case is ignored in the whole line, are the model's choices (log entries 15 and 18, DESIGN CHOICE). -/
def Obligations.AssemblerLinesGiveTheirWords : Prop :=
  assemble ['N', 'o', 'p'] = some 0x00000000 ∧
  (∀ off, off ≤ 9 → assemble ['V', 'A', 'R', 'I', 'N', 'T', ' ', Char.ofNat (48 + off)] =
    some (BitVec.ofNat 32 (off * 65536 + 1))) ∧
  assemble ['v', 'a', 'r', 'i', 'n', 't', ' ', '0', 'x', 'F', 'f', 'F', 'f'] = some 0xFFFF0001 ∧
  assemble ['V', 'A', 'R', 'I', 'N', 'T', ' ', '6', '5', '5', '3', '6'] = none ∧
  assemble ['S', 'L', 'I', 'C', 'E'] = some 0x00000002 ∧
  assemble ['C', 'H', 'K', 'C', 'M', 'P'] = some 0x00000003 ∧
  assemble ['C', 'L', 'E', 'A', 'R'] = some 0x00000004 ∧
  assemble ['.', 'w', 'o', 'r', 'd', ' ', '0', 'x', '1', '0', '0', '0', '2'] = some 0x00010002

/-! ## The step (42_control.md, 20_memory.md) -/

/-- A step with a decoded command in `DECODE`, the engine to move, is `exec` of that command: when `turns` names the
engine, which is taken off, and when `turns` is empty (R96, R97; who moves is the model's field, log entry 3). -/
def Obligations.StepRunsDecodedCommand : Prop :=
  ∀ (s : State) (i : Instr), s.phase = .decode → decode s.lcmd = .ok i →
    (s.turns = [] → step s = exec i s) ∧
    (∀ rest, s.turns = .engine :: rest → step s = exec i { s with turns := rest })

/-- R53, R96: a global step is one move of whoever `turns` names, in every phase: the engine's step, or the host's
transaction; with `turns` empty the engine's while a command runs, else the host's (the model's policy, log entry 3).
`RST` has its own statement. -/
def Obligations.StepIsTheMoversMove : Prop :=
  (∀ (s : State) (rest : List Turn), s.turns = .engine :: rest → step s = engineStep { s with turns := rest }) ∧
  (∀ (s : State) (rest : List Turn), s.turns = .host :: rest → step s = .next (hostStep { s with turns := rest })) ∧
  (∀ s : State, s.turns = [] → s.phase ≠ .idle → step s = engineStep s) ∧
  (∀ s : State, s.turns = [] → s.phase = .idle → step s = .next (hostStep s))

/-- R44, R69: the host's move is the next transaction of its script, whose answer it notes, and `WAIT` reads `STATUS`
until `BUSY` reads 0. The script and the notes are the model's form of the host (log entry 4), and with an empty script
nothing moves (log entry 8). -/
def Obligations.HostMoveIsItsNextTransaction : Prop :=
  ∀ s : State,
    (∀ a rest, s.script = .read a :: rest →
      hostStep s = { (busRead a s).2 with script := rest, responses := (busRead a s).1 :: s.responses }) ∧
    (∀ a d rest, s.script = .write a d :: rest →
      hostStep s = { (busWrite a d s).2 with script := rest, responses := (busWrite a d s).1 :: s.responses }) ∧
    (∀ rest, s.script = .wait :: rest →
      hostStep s = { s with
        script := if s.phase = .idle then rest else s.script
        responses := .read .ok (statusWord s) :: s.responses }) ∧
    (s.script = [] → hostStep s = s)

/-- A command word put where the engine takes its next command runs in the very next step, after the accept of R93
(log entry 13). -/
def Obligations.FetchedWordRunsNext : Prop :=
  ∀ (s : State) (w : Word) (i : Instr), decode w = .ok i →
    step (s.withFetchWord 32 w.toNat) =
      exec i { s with lcmd := w, phase := .decode, done := false, err := .noError, errinfo := 0 }

/-- R96: the step of each phase; in `IDLE` the engine has none, which the model writes as no change (log entry 8). -/
def Obligations.EngineStepFollowsPhase : Prop :=
  ∀ s : State,
    (s.phase = .idle → engineStep s = .next s) ∧
    (s.phase = .decode → ∀ i, decode s.lcmd = .ok i → engineStep s = exec i s) ∧
    (s.phase = .scan → engineStep s = scanStep s) ∧
    (s.phase = .check → engineStep s = checkStep s)

/-- R101: the illegal words are those with OP 0x5..0xF, an RSV bit, or an OFFSET where none may be; one completes with
`ILLEGAL_COMMAND`, the word in `ERRINFO`, and no other change; the rule's three corner words are illegal. -/
def Obligations.IllegalWordCompletes : Prop :=
  (∀ c : Word, legal c = false ↔
    5 ≤ (c.extractLsb' 0 4).toNat ∨ c.extractLsb' 4 12 ≠ 0 ∨
      (c.extractLsb' 16 16 ≠ 0 ∧ (c.extractLsb' 0 4).toNat ∈ [0, 2, 3, 4])) ∧
  (∀ s : State, s.phase = .decode → legal s.lcmd = false →
    engineStep s =
      .next { s with err := .illegalCommand, errinfo := s.lcmd, phase := .idle, done := true }) ∧
  legal 0x00010002 = false ∧ legal 0x00000010 = false ∧ legal 0xFFFFFFFF = false

/-! ## The commands -/

/-- R99: `NOP` completes with `NONE` and 0 and changes nothing else; its word is 0x00000000 exactly. -/
def Obligations.NopCompletes : Prop :=
  (∀ s : State, exec .nop s = .next { s with err := .noError, errinfo := 0, phase := .idle, done := true }) ∧
  (∀ c : Word, decode c = .ok .nop ↔ c = 0x00000000)

/-- R100: `CLEAR` sets every result and flag to 0, keeps the inputs, and completes with only `DONE` set in `STATUS`; its word
is 0x00000004 exactly; nothing but `CLEAR`'s engine step and reset clears `DROP` (who moves is the model's field, log
entry 3). -/
def Obligations.ClearCompletes : Prop :=
  (∀ s : State, ∃ t, exec .clear s = .next t ∧
    t = { s with
      value := 0, consumed := 0, bodyLen := 0, chk := 0, spend := Vector.replicate 8 0, view := Vector.replicate 8 0,
      drop := false, vvalid := false, svalid := false, cmatch := false,
      err := .noError, errinfo := 0, phase := .idle, done := true } ∧
    statusWord t = 0x00000002) ∧
  (∀ c : Word, decode c = .ok .clear ↔ c = 0x00000004) ∧
  (∀ s t : State, step s = .next t → s.drop = true → t.drop = false →
    (s.phase = .decode ∧ s.lcmd = 0x00000004 ∧ (s.turns = [] ∨ ∃ rest, s.turns = .engine :: rest)) ∨
      ∃ rest, s.turns = .rst :: rest)

/-- R91: `CHKCMP` compares the four bytes exactly; what it finds, in every case, and that it changes nothing else; its word is
0x00000003 exactly. -/
def Obligations.ChkcmpCompletes : Prop :=
  (∀ s : State, ∃ t, exec .chkcmp s = .next t ∧
    t = { s with cmatch := t.cmatch, err := t.err, errinfo := t.errinfo, phase := .idle, done := true } ∧
    (s.svalid = false → t.cmatch = false ∧ t.err = .noSlice ∧ t.errinfo = 0) ∧
    (s.svalid = true → s.chk = s.digest → t.cmatch = true ∧ t.err = .noError ∧ t.errinfo = 0) ∧
    (s.svalid = true → s.chk ≠ s.digest →
      t.cmatch = false ∧ t.err = .checksumMismatch ∧ t.errinfo ≠ 0 ∧
      (∀ j, t.errinfo.getLsbD j = true ↔
        j < 4 ∧ s.chk.extractLsb' (8 * j) 8 ≠ s.digest.extractLsb' (8 * j) 8))) ∧
  (∀ c : Word, decode c = .ok .chkcmp ↔ c = 0x00000003)

/-- A `CHK` and a `DIGEST` that differ in byte `j` alone give the mask with bit `j` alone (R91, the mutated checksum byte of
95_test_vectors.md section 1.2). -/
def Obligations.OneMutatedByteGivesOneMaskBit : Prop :=
  ∀ (s : State) (j : Nat), s.svalid = true → j < 4 →
    s.chk.extractLsb' (8 * j) 8 ≠ s.digest.extractLsb' (8 * j) 8 →
    (∀ k, k < 4 → k ≠ j → s.chk.extractLsb' (8 * k) 8 = s.digest.extractLsb' (8 * k) 8) →
    exec .chkcmp s = .next { s with
      cmatch := false, err := .checksumMismatch, errinfo := BitVec.ofNat 32 (2 ^ j), phase := .idle, done := true }

/-- R79: `VARINT off`, from its DecodeStep on, runs to the architectural effect the rule gives, within R103's bound,
whenever the rule's function answers; and it answers when the bytes the parse reads were written. Only the hidden scan
registers differ from the rule's state. -/
def Obligations.VarintRunsToItsEffect : Prop :=
  ∀ (s : State) (off : Nat), s.lcmd = BitVec.ofNat 32 (off * 65536 + 1) → off ≤ 65535 →
    exec (.varint off) s = .next { s with
      mode := .mv, ptr := BitVec.ofNat 17 off, acc := 0, shift := 0, cnt := 0, phase := .scan } ∧
    (∀ t, varintEffect off s = .ok t → ∃ k u,
      k ≤ (if off < s.len.toNat then s.len.toNat - off + 1 else 1) ∧
      engineRun k { s with
        mode := .mv, ptr := BitVec.ofNat 17 off, acc := 0, shift := 0, cnt := 0, phase := .scan } = .next u ∧
      SameButScan t u) ∧
    (s.len.toNat ≤ s.params.N → (∀ i, ParseReads s off i → ∃ b, s.buf.read i = some b) →
      ∃ t, varintEffect off s = .ok t)

/-- R89: `SLICE`, from its DecodeStep on, runs to the architectural effect the rule gives, within R103's bound, whenever
the rule's function answers; and it answers when the bytes it reads were written. Only the hidden scan registers differ
from the rule's state. -/
def Obligations.SliceRunsToItsEffect : Prop :=
  ∀ s : State, s.lcmd = 0x00000002 →
    exec .slice s = .next { s with mode := .ms, ptr := 0, acc := 0, shift := 0, cnt := 0, phase := .scan } ∧
    (∀ t, sliceEffect s = .ok t → ∃ k u, k ≤ s.len.toNat + 2 ∧
      engineRun k { s with mode := .ms, ptr := 0, acc := 0, shift := 0, cnt := 0, phase := .scan } = .next u ∧
      SameButScan t u) ∧
    (s.len.toNat ≤ s.params.N → (∀ i, SliceReads s i → ∃ b, s.buf.read i = some b) → ∃ t, sliceEffect s = .ok t)

/-- R118: a byte the function reads that nothing has written stops it with the model fault, and where the function stops
the engine stops with the same fault, for `VARINT` and for `SLICE`. -/
def Obligations.EngineFaultsWithTheFunction : Prop :=
  (∀ (s : State) (off : Nat) (f : Fault), s.lcmd = BitVec.ofNat 32 (off * 65536 + 1) → off ≤ 65535 →
    varintEffect off s = .error f → ∃ k, engineRun k (startScan .mv off s) = .fault f) ∧
  (∀ (s : State) (f : Fault), s.lcmd = 0x00000002 →
    sliceEffect s = .error f → ∃ k, engineRun k (startScan .ms 0 s) = .fault f) ∧
  (∀ (s : State) (off i : Nat), s.len.toNat ≤ s.params.N → ParseReads s off i → s.buf.read i = none →
    varintEffect off s = .error .unwrittenByte) ∧
  (∀ (s : State) (i : Nat), s.len.toNat ≤ s.params.N → SliceReads s i → s.buf.read i = none →
    sliceEffect s = .error .unwrittenByte)

/-- A command's DecodeStep leaves alone everything R97 to R100 and R91 do not name: every byte of the buffer, the inputs, the
enable, the latched command and the host's side; and outside `CLEAR` every result register and `DROP`. -/
def Obligations.CommandsFrame : Prop :=
  ∀ (i : Instr) (s t : State), exec i s = .next t →
    (∀ a, t.buf.read a = s.buf.read a) ∧ t.buf = s.buf ∧ t.params = s.params ∧ t.ie = s.ie ∧ t.len = s.len ∧
    t.digest = s.digest ∧ t.lcmd = s.lcmd ∧ t.script = s.script ∧ t.turns = s.turns ∧
    t.responses = s.responses ∧ t.draws = s.draws ∧
    (i ≠ .clear → t.value = s.value ∧ t.consumed = s.consumed ∧ t.bodyLen = s.bodyLen ∧ t.chk = s.chk ∧
      t.spend = s.spend ∧ t.view = s.view ∧ t.drop = s.drop ∧ t.vvalid = s.vvalid ∧ t.svalid = s.svalid) ∧
    (i ≠ .clear → i ≠ .chkcmp → t.cmatch = s.cmatch)

/-! ## The varint functions (40_varint.md) -/

/-- R71, R72: the value of a successful parse is the sum of the groups at positions `7*j`; the parse ends with the first byte
whose bit 7 is clear, counts it, and stays inside the input; the value is below 2^W. -/
def Obligations.VarintValueIsGroupSum : Prop :=
  ∀ (s : State) (off v n : Nat), decodeVarint s off = .ok (.ok v n) →
    v = groupSum s off n ∧ v < 2 ^ s.params.W ∧ 1 ≤ n ∧ off + n ≤ s.len.toNat ∧
    (∀ j, j < n → ∃ b, s.buf.read (off + j) = some b ∧ (128 ≤ b.toNat ↔ j + 1 < n))

/-- R73, R74, R75: a failing parse reports the failure met first in index order. `MALFORMED_VARINT` has `max(off, LEN)`, every
byte from `off` up to `LEN` has bit 7 set and the value so far fits; `VARINT_OVERFLOW` has the index of the byte that makes the
value of the bytes read so far 2^W or more, whose group is not 0. There is no third failure; and on a written input each failure
is reported exactly where its conditions hold. -/
def Obligations.VarintFailsInIndexOrder : Prop :=
  ∀ (s : State) (off : Nat),
    let malformed := groupSum s off (s.len.toNat - off) < 2 ^ s.params.W ∧
      (∀ i, off ≤ i → i < s.len.toNat → ∃ b, s.buf.read i = some b ∧ 128 ≤ b.toNat)
    let overflows := fun i => off ≤ i ∧ i < s.len.toNat ∧ groupSum s off (i - off) < 2 ^ s.params.W ∧
      2 ^ s.params.W ≤ groupSum s off (i - off + 1) ∧
      (∀ j, off ≤ j → j < i → ∃ b, s.buf.read j = some b ∧ 128 ≤ b.toNat)
    (∀ e info, decodeVarint s off = .ok (.err e info) →
      (e = .malformedVarint ∧ info = max off s.len.toNat ∧ malformed) ∨
      (e = .varintOverflow ∧ overflows info ∧ byteAt s info % 128 ≠ 0)) ∧
    (s.len.toNat ≤ s.params.N → InputWritten s →
      (malformed → decodeVarint s off = .ok (.err .malformedVarint (max off s.len.toNat))) ∧
      (∀ i, overflows i → decodeVarint s off = .ok (.err .varintOverflow i)))

/-- R76: zero groups at the end change the count alone. Where an input parses to `v` with `n` bytes, the input with bit 7 of the
last of them set, then `z` bytes 0x80 and a byte 0x00, parses to `v` with `n + z + 1` bytes, at any width. -/
def Obligations.RedundantEncodingsAreAccepted : Prop :=
  ∀ (s t : State) (off v n z : Nat), decodeVarint s off = .ok (.ok v n) → t.params = s.params →
    (∀ j, j + 1 < n → t.buf.read (off + j) = s.buf.read (off + j)) →
    (∃ b, s.buf.read (off + n - 1) = some b ∧ t.buf.read (off + n - 1) = some (b ||| 0x80)) →
    (∀ j, j < z → t.buf.read (off + n + j) = some 0x80) → t.buf.read (off + n + z) = some 0x00 →
    off + n + z < t.len.toNat → t.len.toNat ≤ t.params.N →
    decodeVarint t off = .ok (.ok v (n + z + 1))

/-- R81: encoding an integer and decoding it recovers the integer and the byte length; the converse does not hold. -/
def Obligations.VarintRoundTrip : Prop :=
  (∀ (s : State) (off v : Nat), v < 2 ^ s.params.W → s.len.toNat ≤ s.params.N →
    off + (varintEncode v).length ≤ s.len.toNat →
    (∀ j (h : j < (varintEncode v).length), s.buf.read (off + j) = some (varintEncode v)[j]) →
    decodeVarint s off = .ok (.ok v (varintEncode v).length)) ∧
  (∃ (s : State) (v n : Nat), decodeVarint s 0 = .ok (.ok v n) ∧ n ≠ (varintEncode v).length)

/-- The encoder of R80 gives the shortest encoding: one byte below 2^7, else `ceil(bitlength(v) / 7)` bytes, of which exactly the
last has bit 7 clear. -/
def Obligations.VarintEncodeIsShortest : Prop :=
  ∀ v : Nat,
    (v < 2 ^ 7 → (varintEncode v).length = 1) ∧
    (1 ≤ v → (varintEncode v).length = (Nat.size v + 6) / 7) ∧
    (∀ j (h : j < (varintEncode v).length), (128 ≤ (varintEncode v)[j].toNat ↔ j + 1 < (varintEncode v).length))

/-- A `SCAN` step that does not end the scan took exactly one byte: one that exists, fits and has bit 7 set; the scan registers
move as R78 says and nothing else changes (R17, R38, R78). -/
def Obligations.ScanStepTakesOneByte : Prop :=
  ∀ s t : State, s.phase = .scan → s.shift.toNat ≤ s.params.W → engineStep s = .next t → t.phase = .scan →
    ∃ b, s.ptr.toNat < s.len.toNat ∧ s.buf.read s.ptr.toNat = some b ∧ 128 ≤ b.toNat ∧
      b.toNat % 128 * 2 ^ s.shift.toNat < 2 ^ s.params.W ∧
      t.ptr.toNat = s.ptr.toNat + 1 ∧ t.shift.toNat = min (s.shift.toNat + 7) s.params.W ∧
      t.acc.toNat = s.acc.toNat ||| (b.toNat % 128 * 2 ^ s.shift.toNat) ∧
      (s.cnt.toNat ≤ s.ptr.toNat → t.cnt.toNat = s.cnt.toNat + 1) ∧
      t = { s with acc := t.acc, cnt := t.cnt, ptr := t.ptr, shift := t.shift }

/-- A `SCAN` step with no byte left fails with `MALFORMED_VARINT`, and one whose group overflows with `VARINT_OVERFLOW`, each with
`PTR` as its information; of a `VARINT` it clears `VVALID` alone, of a `SLICE` also `SVALID` and `CMATCH` (R78, R98). -/
def Obligations.ScanStepFailures : Prop :=
  ∀ (s : State) (e : ErrCode), s.phase = .scan →
    ((s.len.toNat ≤ s.ptr.toNat ∧ e = .malformedVarint) ∨
      (∃ b, s.ptr.toNat < s.len.toNat ∧ s.ptr.toNat < s.params.N ∧ s.buf.read s.ptr.toNat = some b ∧
        2 ^ s.params.W ≤ b.toNat % 128 * 2 ^ s.shift.toNat ∧ e = .varintOverflow)) →
    (∀ off, decode s.lcmd = .ok (.varint off) →
      engineStep s = .next { s with
        vvalid := false, err := e, errinfo := s.ptr.setWidth 32, phase := .idle, done := true }) ∧
    (decode s.lcmd = .ok .slice →
      engineStep s = .next { s with
        vvalid := false, svalid := false, cmatch := false, err := e, errinfo := s.ptr.setWidth 32, phase := .idle,
        done := true })

/-- R78: the `SCAN` step that takes the terminating byte, bit 7 clear and its group in range. The scan registers take it;
a `VARINT` then completes with `NONE`, the value and the count latched, and a `SLICE` goes on to `CHECK` with nothing
latched. -/
def Obligations.ScanStepEndsTheParse : Prop :=
  ∀ (s : State) (b : Byte), s.phase = .scan → s.shift.toNat ≤ s.params.W → s.cnt.toNat ≤ s.ptr.toNat →
    s.ptr.toNat < s.len.toNat → s.ptr.toNat < s.params.N → s.buf.read s.ptr.toNat = some b → b.toNat < 128 →
    b.toNat * 2 ^ s.shift.toNat < 2 ^ s.params.W →
    ∃ t, engineStep s = .next t ∧
      t.ptr.toNat = s.ptr.toNat + 1 ∧ t.cnt.toNat = s.cnt.toNat + 1 ∧
      t.shift.toNat = min (s.shift.toNat + 7) s.params.W ∧
      t.acc.toNat = s.acc.toNat ||| (b.toNat * 2 ^ s.shift.toNat) ∧
      (∀ off, s.mode = .mv → decode s.lcmd = .ok (.varint off) →
        t = { s with
          acc := t.acc, cnt := t.cnt, ptr := t.ptr, shift := t.shift, value := t.acc, consumed := t.cnt,
          vvalid := true, err := .noError, errinfo := 0, phase := .idle, done := true }) ∧
      (s.mode = .ms →
        t = { s with acc := t.acc, cnt := t.cnt, ptr := t.ptr, shift := t.shift, phase := .check })

/-! ## Slicing (41_slice.md) -/

/-- R82: `SliceAddress` in its three cases. A failed parse is the slice's failure, before any length check; a short input is
`TRUNCATED_ADDRESS` with `p + 68`; else the slices are the buffer's bytes at the rule's places. -/
def Obligations.SliceAddressByCases : Prop :=
  ∀ s : State,
    (∀ e info, decodeVarint s 0 = .ok (.err e info) → sliceAddress s = .ok (.err e info)) ∧
    (∀ v p, decodeVarint s 0 = .ok (.ok v p) → s.len.toNat < p + 68 →
      sliceAddress s = .ok (.err .truncatedAddress (p + 68))) ∧
    (∀ v p, decodeVarint s 0 = .ok (.ok v p) → p + 68 ≤ s.len.toNat → s.len.toNat ≤ s.params.N → InputWritten s →
      ∃ x, sliceAddress s = .ok (.ok x) ∧ x.pfx = v ∧ x.p = p ∧ x.bodyLen = p + 64 ∧
        x.spend.length = 32 ∧ x.view.length = 32 ∧ x.chk.length = 4 ∧
        (∀ j, j < 32 → s.buf.read (p + j) = x.spend[j]?) ∧
        (∀ j, j < 32 → s.buf.read (p + 32 + j) = x.view[j]?) ∧
        (∀ j, j < 4 → s.buf.read (p + 64 + j) = x.chk[j]?))

/-- R83: a `SLICE` whose decoded length is below `p + 68` completes in its `CHECK` step with `TRUNCATED_ADDRESS` and `p + 68`, and
latches nothing (R98). -/
def Obligations.CheckStepTruncates : Prop :=
  ∀ s : State, s.phase = .check → decode s.lcmd = .ok .slice → s.len.toNat < s.cnt.toNat + 68 →
    engineStep s = .next { s with
      vvalid := false, svalid := false, cmatch := false, err := .truncatedAddress,
      errinfo := BitVec.ofNat 32 (s.cnt.toNat + 68), phase := .idle, done := true }

/-- The `CHECK` step of a long enough written input latches, in the one step, the key bytes at the bits R31 and R32 give, the
checksum bytes at the bits R29 gives, the body length, value and count of R88, and changes nothing else. -/
def Obligations.CheckStepLatchesSlices : Prop :=
  ∀ s : State, s.phase = .check → decode s.lcmd = .ok .slice → s.cnt.toNat + 68 ≤ s.len.toNat →
    s.len.toNat ≤ s.params.N → InputWritten s →
    ∃ t, engineStep s = .next t ∧
      (∀ j (h : j < 32), s.buf.read (s.cnt.toNat + j) = some (keyByteBits t.spend j h)) ∧
      (∀ j (h : j < 32), s.buf.read (s.cnt.toNat + 32 + j) = some (keyByteBits t.view j h)) ∧
      (∀ j, j < 4 → s.buf.read (s.cnt.toNat + 64 + j) = some (t.chk.extractLsb' (8 * j) 8)) ∧
      t = { s with
        spend := t.spend, view := t.view, chk := t.chk, bodyLen := BitVec.ofNat 17 (s.cnt.toNat + 64),
        value := s.acc, consumed := s.cnt, vvalid := true, svalid := true, cmatch := false,
        err := .noError, errinfo := 0, phase := .idle, done := true }

/-- R85: bytes after the checksum are ignored. A longer input with the same bytes below `p + 68` gives the same slices. -/
def Obligations.BytesAfterChecksumAreIgnored : Prop :=
  ∀ (s : State) (x : Slices) (m : Memory) (n : Index), sliceAddress s = .ok (.ok x) → x.p + 68 ≤ n.toNat →
    (∀ i, i < x.p + 68 → m.read i = s.buf.read i) →
    sliceAddress { s with buf := m, len := n } = .ok (.ok x)

/-! ## The register interface (20_memory.md, 10_state.md) -/

/-- R47 with R46: a transaction answers `SLVERR`, and then changes nothing, exactly in the listed cases; every other one
answers `OK`. -/
def Obligations.SlverrExactlyAsListed : Prop :=
  ∀ (s : State) (a : Nat) (d : Word),
    let bad := a % 4 ≠ 0 ∨ (0x034 ≤ a ∧ a < 0x040) ∨ (0x080 ≤ a ∧ a < 0x1000) ∨ 0x1000 + s.params.N ≤ a
    let badWrite := bad ∨ a ∈ [0x000, 0x004, 0x00C, 0x018, 0x01C, 0x020, 0x024, 0x028, 0x02C] ∨
      (0x040 ≤ a ∧ a < 0x080) ∨ (a = 0x014 ∧ s.params.N < d.toNat)
    (bad → busRead a s = (.read .slverr 0, s)) ∧
    (¬ bad → ∃ w, (busRead a s).1 = .read .ok w) ∧
    (badWrite → busWrite a d s = (.write .slverr, s)) ∧
    (¬ badWrite → (busWrite a d s).1 = .write .ok)

/-- Every register reads at its offset of R43, as its rule says (R15, R20 to R32), and the read changes nothing. -/
def Obligations.RegistersReadAtTheirOffsets : Prop :=
  ∀ s : State,
    busRead 0x000 s = (.read .ok 0x56445331, s) ∧
    (∃ w, busRead 0x004 s = (.read .ok w, s) ∧ w.toNat = s.params.W + 256 * s.params.N) ∧
    busRead 0x008 s = (.read .ok (if s.ie then 1 else 0), s) ∧
    busRead 0x00C s = (.read .ok (statusWord s), s) ∧
    busRead 0x010 s = (.read .ok 0, s) ∧
    busRead 0x014 s = (.read .ok (s.len.setWidth 32), s) ∧
    (∃ lo hi, busRead 0x018 s = (.read .ok lo, s) ∧ busRead 0x01C s = (.read .ok hi, s) ∧
      s.value.toNat = lo.toNat + 2 ^ 32 * hi.toNat) ∧
    busRead 0x020 s = (.read .ok (s.consumed.setWidth 32), s) ∧
    busRead 0x024 s = (.read .ok s.errinfo, s) ∧
    busRead 0x028 s = (.read .ok (s.bodyLen.setWidth 32), s) ∧
    busRead 0x02C s = (.read .ok s.chk, s) ∧
    busRead 0x030 s = (.read .ok s.digest, s) ∧
    (∀ i : Fin 8, busRead (0x040 + 4 * i.val) s = (.read .ok s.spend[i], s)) ∧
    (∀ i : Fin 8, busRead (0x060 + 4 * i.val) s = (.read .ok s.view[i], s))

/-- The layout of `STATUS` (R23) with `BUSY = (PHASE ≠ IDLE)` (R34) and the codes of R104; every other bit reads 0. -/
def Obligations.StatusWordLayout : Prop :=
  ∀ s : State,
    ((statusWord s).getLsbD 0 = true ↔ s.phase ≠ .idle) ∧
    (statusWord s).getLsbD 1 = s.done ∧ (statusWord s).getLsbD 2 = s.drop ∧
    (statusWord s).getLsbD 3 = s.vvalid ∧ (statusWord s).getLsbD 4 = s.svalid ∧
    (statusWord s).getLsbD 5 = s.cmatch ∧
    (∀ j, j = 6 ∨ j = 7 ∨ 12 ≤ j → (statusWord s).getLsbD j = false) ∧
    ((statusWord s).extractLsb' 8 4).toNat =
      (match s.err with
        | .noError => 0
        | .malformedVarint => 1
        | .varintOverflow => 2
        | .truncatedAddress => 3
        | .checksumMismatch => 4
        | .illegalCommand => 5
        | .noSlice => 6)

/-- R20, R21: `ID` and `PARAM` are hardwired. No step, reset included, changes what they read, and a write is refused. -/
def Obligations.HardwiredRegistersNeverChange : Prop :=
  (∀ s t : State, step s = .next t →
    (busRead 0x000 t).1 = .read .ok 0x56445331 ∧ (busRead 0x004 t).1 = (busRead 0x004 s).1) ∧
  (∀ s : State, ∃ w, (busRead 0x004 s).1 = .read .ok w ∧
    (w.extractLsb' 0 7).toNat = s.params.W ∧ w.getLsbD 7 = false ∧ (w.extractLsb' 8 17).toNat = s.params.N ∧
    w.extractLsb' 25 7 = 0 ∧ 1 ≤ s.params.W ∧ s.params.W ≤ 64 ∧ 4 ≤ s.params.N ∧ s.params.N ≤ 65536 ∧
    s.params.N % 4 = 0) ∧
  (∀ (s : State) (d : Word), busWrite 0x000 d s = (.write .slverr, s) ∧ busWrite 0x004 d s = (.write .slverr, s)) ∧
  (busRead 0x004 State.reset).1 = .read .ok 0x00010040

/-- R22: a write of `CTRL` takes effect at once, busy or not, sets `IE` from bit 0 and nothing else; the other bits read 0. -/
def Obligations.CtrlWriteIsNeverDropped : Prop :=
  ∀ (s : State) (d : Word), ∃ t, busWrite 0x008 d s = (.write .ok, t) ∧ t = { s with ie := d.getLsbD 0 } ∧
    (busRead 0x008 t).1 = .read .ok (d &&& 1) ∧ (busRead 0x008 State.reset).1 = .read .ok 0

/-- R93: a word written to `CMD` while `BUSY = 0` is accepted, legal or not; exactly the listed registers change. -/
def Obligations.CommandIsAccepted : Prop :=
  ∀ (s : State) (c : Word), s.phase = .idle →
    busWrite 0x010 c s = (.write .ok, { s with
      lcmd := c, phase := .decode, done := false, err := .noError, errinfo := 0 })

/-- R94: while a command runs, writes of `CMD`, `DIGEST`, `LEN` with `d ≤ N` and the buffer window answer `OK` and change nothing but
`DROP`; `LEN` with `d > N` is `SLVERR` without `DROP`; `CTRL` is written; reads are answered as ever. -/
def Obligations.BusyWritesAreDropped : Prop :=
  ∀ (s : State) (d : Word), s.phase ≠ .idle →
    busWrite 0x010 d s = (.write .ok, { s with drop := true }) ∧
    busWrite 0x030 d s = (.write .ok, { s with drop := true }) ∧
    (d.toNat ≤ s.params.N → busWrite 0x014 d s = (.write .ok, { s with drop := true })) ∧
    (s.params.N < d.toNat → busWrite 0x014 d s = (.write .slverr, s)) ∧
    (∀ k, 4 * k < s.params.N → busWrite (0x1000 + 4 * k) d s = (.write .ok, { s with drop := true })) ∧
    busWrite 0x008 d s = (.write .ok, { s with ie := d.getLsbD 0 }) ∧
    (∀ a r, target s.params.N a = some r → ∃ w, (busRead a s).1 = .read .ok w)

/-- R95: an accepted write of `LEN` or of a buffer word clears `SVALID` and `CMATCH`, whatever the data, and changes besides only
what was written: `LEN`, or the four bytes of the word; a write of `DIGEST` invalidates nothing. -/
def Obligations.InputWritesInvalidate : Prop :=
  ∀ (s : State) (d : Word), s.phase = .idle →
    (d.toNat ≤ s.params.N → ∃ n : Index, n.toNat = d.toNat ∧
      busWrite 0x014 d s = (.write .ok, { s with len := n, svalid := false, cmatch := false })) ∧
    (∀ k, 4 * k < s.params.N →
      busWrite (0x1000 + 4 * k) d s =
        (.write .ok, { s with buf := s.buf.writeWord (4 * k) d, svalid := false, cmatch := false }) ∧
      (∀ i, (s.buf.writeWord (4 * k) d).read i =
        if 4 * k ≤ i ∧ i < 4 * k + 4 then some (d.extractLsb' (8 * (i - 4 * k)) 8) else s.buf.read i)) ∧
    busWrite 0x030 d s = (.write .ok, { s with digest := d })

/-- The buffer window (R49, R50): an accepted write of word `k` stores its four lanes, little-endian, at `4k..4k+3` and leaves every
other byte alone; the word then reads back. -/
def Obligations.BufferWindowWrites : Prop :=
  ∀ (s : State) (k : Nat) (d : Word), s.phase = .idle → 4 * k < s.params.N →
    ∃ t, busWrite (0x1000 + 4 * k) d s = (.write .ok, t) ∧
      (∀ j, j < 4 → t.buf.read (4 * k + j) = some (d.extractLsb' (8 * j) 8)) ∧
      (∀ i, i < 4 * k ∨ 4 * k + 4 ≤ i → t.buf.read i = s.buf.read i) ∧
      t = { s with buf := t.buf, svalid := false, cmatch := false } ∧
      busRead (0x1000 + 4 * k) t = (.read .ok d, t)

/-- A read of a buffer word whose bytes were written returns them, little-endian, whatever `LEN` is and whether or not a command
runs (R49, R50). -/
def Obligations.BufferWindowReads : Prop :=
  ∀ (s : State) (k : Nat) (b : Fin 4 → Byte), 4 * k < s.params.N →
    (∀ j : Fin 4, s.buf.read (4 * k + j.val) = some (b j)) →
    busRead (0x1000 + 4 * k) s = (.read .ok (b 3 ++ b 2 ++ b 1 ++ b 0), s)

/-- R52 for reads: no read changes any register, buffer byte or hidden register; only the model's count of draws can move, and
only where the word read has an unwritten byte (R118, log entry 6). -/
def Obligations.ReadsHaveNoSideEffect : Prop :=
  ∀ (s : State) (a : Nat),
    (busRead a s).2 = { s with draws := (busRead a s).2.draws } ∧
    ((busRead a s).2.draws ≠ s.draws →
      ∃ k j, a = 0x1000 + 4 * k ∧ j < 4 ∧ 4 * k < s.params.N ∧ s.buf.read (4 * k + j) = none)

/-! ## Interrupt, reset, errors (60_exceptions.md, 70_reset_and_hazards.md) -/

/-- R112 with R40: `IRQ` is `IE AND DONE`; a completion raises it exactly when enabled, an accept clears it, `IE = 0` masks it,
`IE = 1` with `DONE = 1` raises it at once, reset clears it. -/
def Obligations.IrqIsLevel : Prop :=
  (∀ s : State, irq s = true ↔ s.ie = true ∧ s.done = true) ∧
  (∀ s t : State, s.phase ≠ .idle → engineStep s = .next t → t.phase = .idle → t.done = true ∧ irq t = s.ie) ∧
  (∀ (s : State) (c : Word), s.phase = .idle → irq (busWrite 0x010 c s).2 = false) ∧
  (∀ s : State, irq (busWrite 0x008 0 s).2 = false ∧ irq (busWrite 0x008 1 s).2 = s.done) ∧
  irq State.reset = false

/-- R41: what reset leaves. -/
def Obligations.ResetValues : Prop :=
  let r := State.reset
  (∀ i, r.buf.read i = none) ∧ (busRead 0x000 r).1 = .read .ok 0x56445331 ∧
  (busRead 0x004 r).1 = .read .ok (BitVec.ofNat 32 (r.params.W + 256 * r.params.N)) ∧
  r.ie = false ∧ statusWord r = 0 ∧ (busRead 0x010 r).1 = .read .ok 0 ∧ r.len = 0 ∧ r.value = 0 ∧
  r.consumed = 0 ∧ r.errinfo = 0 ∧ r.bodyLen = 0 ∧ r.chk = 0 ∧ r.digest = 0 ∧
  (∀ i : Fin 8, r.spend[i] = 0 ∧ r.view[i] = 0) ∧ r.lcmd = 0 ∧ r.phase = .idle ∧ r.mode = .mv ∧ r.ptr = 0 ∧
  r.acc = 0 ∧ r.shift = 0 ∧ r.cnt = 0 ∧ irq r = false

/-- `RST` at any time aborts what runs and gives every piece of the block's state its reset value, every buffer byte unwritten; the
instance's parameters and the host's own side stay (R117, R118; the host's side is the model's, log entry 7). -/
def Obligations.ResetAbortsAndClears : Prop :=
  ∀ (s : State) (rest : List Turn), s.turns = .rst :: rest →
    step s = .next { State.reset with
      params := s.params, script := s.script, turns := rest, responses := s.responses, draws := s.draws }

/-- While a command runs, nothing but `RST` changes `BUF`, `LEN`, `DIGEST` or the latched command, so every byte an engine step reads
has the value it had at accept (R54, R56, R94). -/
def Obligations.InputsAreFrozenWhileBusy : Prop :=
  ∀ s t : State, s.phase ≠ .idle → step s = .next t → (∀ rest, s.turns ≠ .rst :: rest) →
    t.buf = s.buf ∧ t.len = s.len ∧ t.digest = s.digest ∧ t.lcmd = s.lcmd

/-- R109 with R98: the state after a failed command is the state before it but for `STATUS`, `ERRINFO` and the hidden engine
registers; its last step sets `DONE`, the code and the information, and of the valid bits a failed `VARINT` clears `VVALID`
alone, a failed `SLICE` also `SVALID` and `CMATCH`, a failed `CHKCMP` `CMATCH`. -/
def Obligations.ErrorsArePrecise : Prop :=
  (∀ (k : Nat) (s t : State), s.phase ≠ .idle → engineRun k s = .next t → t.phase = .idle → t.err ≠ .noError →
    SameButStatus s t) ∧
  (∀ s t : State, s.phase ≠ .idle → engineStep s = .next t → t.phase = .idle → t.err ≠ .noError →
    t = { s with
      done := true, vvalid := t.vvalid, svalid := t.svalid, cmatch := t.cmatch, err := t.err, errinfo := t.errinfo,
      phase := .idle } ∧
    (∀ off, decode s.lcmd = .ok (.varint off) → t.vvalid = false ∧ t.svalid = s.svalid ∧ t.cmatch = s.cmatch) ∧
    (decode s.lcmd = .ok .slice → t.vvalid = false ∧ t.svalid = false ∧ t.cmatch = false) ∧
    (decode s.lcmd = .ok .chkcmp → s.phase = .decode → t.vvalid = s.vvalid ∧ t.svalid = s.svalid ∧ t.cmatch = false))

/-- R110: an error stays visible until the next accept or reset: no step that is neither changes `ERR` or `ERRINFO` of an idle
block. -/
def Obligations.ErrorStaysUntilAccept : Prop :=
  ∀ s t : State, s.phase = .idle → step s = .next t →
    (t.err = s.err ∧ t.errinfo = s.errinfo) ∨ (t.phase = .decode ∧ t.err = .noError ∧ t.errinfo = 0) ∨
    (∃ rest, s.turns = .rst :: rest)

/-- R118: the engine stops only by a model fault for a byte of the input that nothing has written; a host that keeps R119's duty
never meets it. No step is refused. -/
def Obligations.EngineFaultsOnlyOnUnwrittenInput : Prop :=
  (∀ (s : State) (f : Fault), BlockInv s → step s = .fault f →
    f = .unwrittenByte ∧ ∃ i, i < s.len.toNat ∧ s.buf.read i = none) ∧
  (∀ (s : State) (f : Fault), BlockInv s → InputWritten s → step s ≠ .fault f) ∧
  (∀ (s : State) (r : Refusal), step s ≠ .refused r)

/-! ## Progress (R103, R125) -/

/-- R103: every accepted command completes within the rule's bound of engine steps, when the bytes it reads were written
(R118 gives it no result otherwise). `NOP`, `CLEAR`, `CHKCMP`, an illegal word and `VARINT off` with `off ≥ LEN` read no
byte, so these complete whatever was written. -/
def Obligations.EveryCommandCompletes : Prop :=
  ∀ s : State, s.phase = .decode → s.len.toNat ≤ s.params.N →
    (∀ i, CommandReads s i → ∃ b, s.buf.read i = some b) →
    ∃ k t, engineRun k s = .next t ∧ t.phase = .idle ∧ t.done = true ∧ 1 ≤ k ∧
      k ≤ (match decode s.lcmd with
        | .ok (.varint off) => if off < s.len.toNat then 1 + (s.len.toNat - off + 1) else 2
        | .ok .slice => 1 + (s.len.toNat + 1) + 1
        | .ok .nop => 1
        | .ok .chkcmp => 1
        | .ok .clear => 1
        | .error _ => 1)

/-- R125: with a fair engine every `WAIT` ends. It assumes `turns` empty, so that the fair engine is the model's policy (log
entry 3, DESIGN CHOICE), and the host is the model's script (log entry 4, DESIGN CHOICE). -/
def Obligations.WaitEnds : Prop :=
  ∀ (s : State) (rest : List HostOp), BlockInv s → InputWritten s → s.turns = [] → s.script = .wait :: rest →
    ∃ k t, core.run k s = .next t ∧ t.script = rest ∧ t.phase = .idle

/-! ## Isolation -/

/-- What a host does while a command runs changes only `IE`, `DROP` and its own side, and the engine's next step does the same with or
without it (R53, R54, R94). -/
def Obligations.HostMovesDoNotDisturbTheEngine : Prop :=
  ∀ s t : State, s.phase ≠ .idle → engineStep s = .next t →
    SameButHostSide s (hostStep s) ∧ ∃ u, engineStep (hostStep s) = .next u ∧ SameButHostSide t u

/-- R18: the engine never reads the bytes `BUF[LEN .. N)`: with other bytes there it does the same. -/
def Obligations.BytesFromLenAreNeverRead : Prop :=
  ∀ (s : State) (m : Memory), (∀ i, i < s.len.toNat → m.read i = s.buf.read i) →
    engineStep { s with buf := m } =
      (match engineStep s with
        | .next t => .next { t with buf := m }
        | .fault f => .fault f
        | .refused r => .refused r)

/-! ## Invariants -/

/-- The invariant holds at reset. -/
def Obligations.ResetMeetsInv : Prop := BlockInv State.reset

/-- Every step keeps the invariant: the buffer's canonical form and bound, `LEN ≤ N`, `VALUE` and `ACC` below 2^W, `SHIFT ≤ W`, `CMATCH`
only with `SVALID`, no `DONE` or error while busy, `ERRINFO` as its code allows, and the scan registers of R78. -/
def Obligations.StepKeepsInv : Prop :=
  ∀ s t : State, BlockInv s → step s = .next t → BlockInv t

/-- Every step keeps the meaning of `SVALID` (R23): the slice registers hold the slices of a successful `SLICE` of the PRESENT `BUF` and
`LEN`; with it, that the scan registers agree with the function (R78). -/
def Obligations.StepKeepsSliceCurrent : Prop :=
  ∀ s t : State, BlockInv s → ScanAgrees s → SliceCurrent s → step s = .next t → ScanAgrees t ∧ SliceCurrent t

/-- The meaning of `SVALID` and the agreement of the scan registers hold at reset. -/
def Obligations.ResetMeetsSliceCurrent : Prop := ScanAgrees State.reset ∧ SliceCurrent State.reset

/-! ## Host programs (30_encoding.md, 41_slice.md) -/

/-- R69: `LOADBUF` on an idle block leaves the bytes in `BUF[0 .. n)` and `n` in `LEN`, so that the host's duty is kept; the slice is
invalid after it (R95). It assumes `turns` empty, so it rests on the model's policy for who moves (log entry 3, DESIGN
CHOICE), and the host is the model's script (log entry 4, DESIGN CHOICE). -/
def Obligations.LoadBufLoads : Prop :=
  ∀ (s : State) (bs : List Byte) (rest : List HostOp), s.phase = .idle → s.turns = [] → bs.length ≤ s.params.N →
    s.script = HostStmt.expand (.loadBuf bs) ++ rest →
    ∃ k t, core.run k s = .next t ∧ t.script = rest ∧ t.phase = .idle ∧ t.len.toNat = bs.length ∧
      (∀ j, j < bs.length → t.buf.read j = bs[j]?) ∧ InputWritten t ∧ t.svalid = false ∧ t.cmatch = false

/-- R92: the address pipeline as a host program. From an idle block whose input was written and slices, `RUN SLICE`, `SETDIG d`, `RUN
CHKCMP` ends idle with the prefix in `VALUE`, the slices in their registers, and `CMATCH = 1` and `ERR = NONE` exactly when `d` is the
embedded checksum, else `CHECKSUM_MISMATCH`. It assumes `turns` empty, so it rests on the model's policy for who moves
(log entry 3, DESIGN CHOICE), and the host is the model's script (log entry 4, DESIGN CHOICE). -/
def Obligations.AddressPipelineChecksDigest : Prop :=
  ∀ (s : State) (x : Slices) (d : Word), s.phase = .idle → s.turns = [] → sliceAddress s = .ok (.ok x) →
    s.script = expandProgram [.run (encode .slice), .setDig d, .run (encode .chkcmp)] →
    ∃ k t, core.run k s = .next t ∧ RunEnded t ∧ t.value.toNat = x.pfx ∧
      t.consumed.toNat = x.p ∧ t.bodyLen.toNat = x.bodyLen ∧ t.spend = keyWords x.spend ∧ t.view = keyWords x.view ∧
      t.chk = wordAt x.chk 0 ∧ t.svalid = true ∧ (t.cmatch = true ↔ d = wordAt x.chk 0) ∧
      t.err = (if d = wordAt x.chk 0 then .noError else .checksumMismatch)
end

