-- ==== Sys2Proof/Laws/Memory.lean ====
section
/-! SUPPORT. The laws of the buffer: read after write, every write keeps the canonical form and the bound, and what an
engine read answers. -/

namespace Sys2Proof.Machine

/-- A byte that was written reads back. -/
@[simp] theorem Memory.read_write_same (m : Memory) (a : Nat) (b : Byte) : (m.write a b).read a = some b := by
  induction m with
  | nil => simp [Memory.write, Memory.read]
  | cons c m ih =>
    obtain ⟨k, v⟩ := c
    simp only [Memory.write]
    split
    · simp [Memory.read]
    · split
      · simp [Memory.read]
      · next h1 h2 => simp [Memory.read, ih, Ne.symm h2]

/-- A write leaves every other byte alone. -/
theorem Memory.read_write_of_ne (m : Memory) {a i : Nat} (b : Byte) (h : i ≠ a) :
    (m.write a b).read i = m.read i := by
  induction m with
  | nil => simp [Memory.write, Memory.read, Ne.symm h]
  | cons c m ih =>
    obtain ⟨k, v⟩ := c
    simp only [Memory.write]
    split
    · simp [Memory.read, Ne.symm h]
    · split
      · next h2 => subst h2; simp [Memory.read, Ne.symm h]
      · simp [Memory.read, ih]

/-- Every entry after a write is the written byte or an old entry. -/
theorem Memory.mem_write {m : Memory} {a : Nat} {b : Byte} {c : Host.Cell} (h : c ∈ m.write a b) :
    c = (a, b) ∨ c ∈ m := by
  induction m with
  | nil => simpa [Memory.write] using h
  | cons d m ih =>
    obtain ⟨k, v⟩ := d
    simp only [Memory.write] at h
    split at h
    · simpa using h
    · split at h
      · simp at h; rcases h with h | h
        · exact .inl h
        · simp [h]
      · simp at h; rcases h with h | h
        · simp [h]
        · rcases ih h with h | h
          · exact .inl h
          · simp [h]

/-- A write keeps the indices strictly rising. -/
theorem Memory.wf_write {m : Memory} (h : m.wf) (a : Nat) (b : Byte) : (m.write a b).wf := by
  induction m with
  | nil => simp [Memory.write, Memory.wf]
  | cons c m ih =>
    obtain ⟨k, v⟩ := c
    obtain ⟨hk, hm⟩ := List.pairwise_cons.1 h
    simp only [Memory.write]
    split
    · next h1 =>
      refine List.pairwise_cons.2 ⟨fun d hd => ?_, h⟩
      rcases List.mem_cons.1 hd with rfl | hd
      · exact h1
      · exact h1.trans (hk d hd)
    · split
      · next h1 h2 => subst h2; exact List.pairwise_cons.2 ⟨hk, hm⟩
      · next h1 h2 =>
        refine List.pairwise_cons.2 ⟨fun d hd => ?_, ih hm⟩
        rcases Memory.mem_write hd with rfl | hd
        · simp; omega
        · exact hk d hd

/-- A write inside the buffer stays inside it. -/
theorem Memory.within_write {m : Memory} {n a : Nat} (h : m.within n) (b : Byte) (ha : a < n) :
    (m.write a b).within n := by
  intro c hc
  rcases Memory.mem_write hc with rfl | hc
  · exact ha
  · exact h c hc

/-- A word written at `i` reads back lane by lane (R50). -/
theorem Memory.read_writeWord_lane (m : Memory) (i : Nat) (d : Word) {j : Nat} (h : j < 4) :
    (m.writeWord i d).read (i + j) = some (laneByte d j) := by
  have : j = 0 ∨ j = 1 ∨ j = 2 ∨ j = 3 := by omega
  rcases this with rfl | rfl | rfl | rfl <;>
    simp [Memory.writeWord, Memory.read_write_of_ne]

/-- A word write leaves every byte outside its four alone (R50). -/
theorem Memory.read_writeWord_outside (m : Memory) {i a : Nat} (d : Word) (h : a < i ∨ i + 4 ≤ a) :
    (m.writeWord i d).read a = m.read a := by
  simp only [Memory.writeWord]
  rw [Memory.read_write_of_ne _ _ (by omega), Memory.read_write_of_ne _ _ (by omega),
    Memory.read_write_of_ne _ _ (by omega), Memory.read_write_of_ne _ _ (by omega)]

/-- A word write keeps the canonical form. -/
theorem Memory.wf_writeWord {m : Memory} (h : m.wf) (i : Nat) (d : Word) : (m.writeWord i d).wf :=
  Memory.wf_write (Memory.wf_write (Memory.wf_write (Memory.wf_write h _ _) _ _) _ _) _ _

/-- A word write inside the buffer stays inside it. -/
theorem Memory.within_writeWord {m : Memory} {n i : Nat} (h : m.within n) (d : Word) (hi : i + 4 ≤ n) :
    (m.writeWord i d).within n :=
  Memory.within_write (Memory.within_write (Memory.within_write (Memory.within_write h _ (by omega)) _
    (by omega)) _ (by omega)) _ (by omega)

/-- What an engine read answers: the written byte, inside the buffer (R58). -/
theorem readByte_eq_ok {s : State} {i : Nat} {b : Byte} :
    readByte s i = .ok b ↔ i < s.params.N ∧ s.buf.read i = some b := by
  unfold readByte
  split
  · simp; omega
  · cases h : s.buf.read i with
    | none => simp
    | some c => simp; omega

/-- The faults of an engine read (R12, R118). -/
theorem readByte_eq_error {s : State} {i : Nat} {f : Fault} :
    readByte s i = .error f ↔
      (s.params.N ≤ i ∧ f = .outsideBuffer) ∨ (i < s.params.N ∧ s.buf.read i = none ∧ f = .unwrittenByte) := by
  unfold readByte
  split
  · next h => simp [h, Nat.not_lt.2 h, eq_comm]
  · next h => cases h2 : s.buf.read i <;> simp [h, Nat.lt_of_not_le h, eq_comm]

/-- An engine read reads only the parameters and the byte named. -/
theorem readByte_congr {s t : State} {i : Nat} (hp : s.params = t.params) (hb : s.buf.read i = t.buf.read i) :
    readByte s i = readByte t i := by
  simp [readByte, hp, hb]

/-- A block of engine reads gives the bytes one by one (R88). -/
theorem readBytes_eq_ok {s : State} {i n : Nat} {bs : List Byte} :
    readBytes s i n = .ok bs ↔ bs.length = n ∧ ∀ j (h : j < bs.length), readByte s (i + j) = .ok bs[j] := by
  induction n generalizing i bs with
  | zero =>
    cases bs <;> simp [readBytes]
  | succ n ih =>
    rw [readBytes]
    cases h1 : readByte s i with
    | error f =>
      simp only [reduceCtorEq, false_iff]
      rintro ⟨hl, hr⟩
      have := hr 0 (by omega)
      simp [h1] at this
    | ok b =>
      simp only
      cases h2 : readBytes s (i + 1) n with
      | error f =>
        simp only [reduceCtorEq, false_iff]
        rintro ⟨hl, hr⟩
        cases bs with
        | nil => simp at hl
        | cons c cs =>
          have : readBytes s (i + 1) n = .ok cs := ih.2 ⟨by simpa using hl, fun j hj => by
            have := hr (j + 1) (by simpa using hj)
            simpa [Nat.add_assoc, Nat.add_comm 1 j] using this⟩
          simp [h2] at this
      | ok cs =>
        obtain ⟨hl, hr⟩ := ih.1 h2
        constructor
        · rintro ⟨⟩
          refine ⟨by simp [hl], fun j hj => ?_⟩
          cases j with
          | zero => simpa using h1
          | succ j =>
            have := hr j (by simpa using hj)
            simpa [Nat.add_assoc, Nat.add_comm 1 j] using this
        · rintro ⟨hl', hr'⟩
          cases bs with
          | nil => simp at hl'
          | cons c ds =>
            have hc := hr' 0 (by simp)
            simp only [Nat.add_zero, h1, List.getElem_cons_zero, Except.ok.injEq] at hc
            have : readBytes s (i + 1) n = .ok ds := ih.2 ⟨by simpa using hl', fun j hj => by
              have := hr' (j + 1) (by simpa using hj)
              simpa [Nat.add_assoc, Nat.add_comm 1 j] using this⟩
            rw [h2] at this
            cases this
            simp [hc]

/-- A block of engine reads faults with the fault of one of its bytes (R118). -/
theorem readBytes_error {s : State} {i n : Nat} {f : Fault} (h : readBytes s i n = .error f) :
    ∃ j, j < n ∧ readByte s (i + j) = .error f := by
  induction n generalizing i with
  | zero => simp [readBytes] at h
  | succ n ih =>
    rw [readBytes] at h
    cases h1 : readByte s i with
    | error g => exact ⟨0, by omega, by simp_all⟩
    | ok b =>
      simp only [h1] at h
      cases h2 : readBytes s (i + 1) n with
      | error g =>
        simp only [h2, Except.error.injEq] at h
        subst h
        obtain ⟨j, hj, hr⟩ := ih h2
        exact ⟨j + 1, by omega, by rwa [Nat.add_assoc, Nat.add_comm 1 j] at hr⟩
      | ok cs => simp [h2] at h

/-- Where no byte faults, a block of engine reads answers (R88). -/
theorem readBytes_exists {s : State} {i n : Nat} (h : ∀ j, j < n → ∃ b, readByte s (i + j) = .ok b) :
    ∃ bs, readBytes s i n = .ok bs := by
  cases h1 : readBytes s i n with
  | ok bs => exact ⟨bs, rfl⟩
  | error f =>
    obtain ⟨j, hj, hr⟩ := readBytes_error h1
    obtain ⟨b, hb⟩ := h j hj
    simp [hb] at hr

/-- A block of engine reads reads only the parameters and its own bytes. -/
theorem readBytes_congr {s t : State} {i n : Nat} (hp : s.params = t.params)
    (hb : ∀ j, j < n → s.buf.read (i + j) = t.buf.read (i + j)) : readBytes s i n = readBytes t i n := by
  induction n generalizing i with
  | zero => rfl
  | succ n ih =>
    rw [readBytes, readBytes, readByte_congr hp (by simpa using hb 0 (by omega)),
      ih fun j hj => by
        have := hb (j + 1) (by omega)
        rwa [Nat.add_comm j 1, ← Nat.add_assoc] at this]

end Sys2Proof.Machine
end

