-- ==== Sys2Proof/Laws/State.lean ====
section
/-! SUPPORT. One lemma for each field of each named update of the state, so that no later proof unfolds a record update. -/

namespace Sys2Proof.Machine

section complete
variable (cmd : Option Instr) (e : ErrCode) (n : Nat) (s : State)
@[simp] theorem complete_params : (complete cmd e n s).params = s.params := rfl
@[simp] theorem complete_buf : (complete cmd e n s).buf = s.buf := rfl
@[simp] theorem complete_ie : (complete cmd e n s).ie = s.ie := rfl
@[simp] theorem complete_done : (complete cmd e n s).done = true := rfl
@[simp] theorem complete_drop : (complete cmd e n s).drop = s.drop := rfl
@[simp] theorem complete_vvalid : (complete cmd e n s).vvalid = completedVvalid cmd e s.vvalid := rfl
@[simp] theorem complete_svalid : (complete cmd e n s).svalid = completedSvalid cmd e s.svalid := rfl
@[simp] theorem complete_cmatch : (complete cmd e n s).cmatch = completedCmatch cmd s.cmatch := rfl
@[simp] theorem complete_err : (complete cmd e n s).err = e := rfl
@[simp] theorem complete_len : (complete cmd e n s).len = s.len := rfl
@[simp] theorem complete_value : (complete cmd e n s).value = s.value := rfl
@[simp] theorem complete_consumed : (complete cmd e n s).consumed = s.consumed := rfl
@[simp] theorem complete_errinfo : (complete cmd e n s).errinfo = BitVec.ofNat 32 n := rfl
@[simp] theorem complete_bodyLen : (complete cmd e n s).bodyLen = s.bodyLen := rfl
@[simp] theorem complete_chk : (complete cmd e n s).chk = s.chk := rfl
@[simp] theorem complete_digest : (complete cmd e n s).digest = s.digest := rfl
@[simp] theorem complete_spend : (complete cmd e n s).spend = s.spend := rfl
@[simp] theorem complete_view : (complete cmd e n s).view = s.view := rfl
@[simp] theorem complete_lcmd : (complete cmd e n s).lcmd = s.lcmd := rfl
@[simp] theorem complete_phase : (complete cmd e n s).phase = .idle := rfl
@[simp] theorem complete_mode : (complete cmd e n s).mode = s.mode := rfl
@[simp] theorem complete_ptr : (complete cmd e n s).ptr = s.ptr := rfl
@[simp] theorem complete_acc : (complete cmd e n s).acc = s.acc := rfl
@[simp] theorem complete_shift : (complete cmd e n s).shift = s.shift := rfl
@[simp] theorem complete_cnt : (complete cmd e n s).cnt = s.cnt := rfl
@[simp] theorem complete_script : (complete cmd e n s).script = s.script := rfl
@[simp] theorem complete_turns : (complete cmd e n s).turns = s.turns := rfl
@[simp] theorem complete_responses : (complete cmd e n s).responses = s.responses := rfl
@[simp] theorem complete_draws : (complete cmd e n s).draws = s.draws := rfl
end complete

section accept
variable (c : Word) (s : State)
@[simp] theorem accept_params : (accept c s).params = s.params := rfl
@[simp] theorem accept_buf : (accept c s).buf = s.buf := rfl
@[simp] theorem accept_ie : (accept c s).ie = s.ie := rfl
@[simp] theorem accept_done : (accept c s).done = false := rfl
@[simp] theorem accept_drop : (accept c s).drop = s.drop := rfl
@[simp] theorem accept_vvalid : (accept c s).vvalid = s.vvalid := rfl
@[simp] theorem accept_svalid : (accept c s).svalid = s.svalid := rfl
@[simp] theorem accept_cmatch : (accept c s).cmatch = s.cmatch := rfl
@[simp] theorem accept_err : (accept c s).err = .noError := rfl
@[simp] theorem accept_len : (accept c s).len = s.len := rfl
@[simp] theorem accept_value : (accept c s).value = s.value := rfl
@[simp] theorem accept_consumed : (accept c s).consumed = s.consumed := rfl
@[simp] theorem accept_errinfo : (accept c s).errinfo = 0 := rfl
@[simp] theorem accept_bodyLen : (accept c s).bodyLen = s.bodyLen := rfl
@[simp] theorem accept_chk : (accept c s).chk = s.chk := rfl
@[simp] theorem accept_digest : (accept c s).digest = s.digest := rfl
@[simp] theorem accept_spend : (accept c s).spend = s.spend := rfl
@[simp] theorem accept_view : (accept c s).view = s.view := rfl
@[simp] theorem accept_lcmd : (accept c s).lcmd = c := rfl
@[simp] theorem accept_phase : (accept c s).phase = .decode := rfl
@[simp] theorem accept_mode : (accept c s).mode = s.mode := rfl
@[simp] theorem accept_ptr : (accept c s).ptr = s.ptr := rfl
@[simp] theorem accept_acc : (accept c s).acc = s.acc := rfl
@[simp] theorem accept_shift : (accept c s).shift = s.shift := rfl
@[simp] theorem accept_cnt : (accept c s).cnt = s.cnt := rfl
@[simp] theorem accept_script : (accept c s).script = s.script := rfl
@[simp] theorem accept_turns : (accept c s).turns = s.turns := rfl
@[simp] theorem accept_responses : (accept c s).responses = s.responses := rfl
@[simp] theorem accept_draws : (accept c s).draws = s.draws := rfl
end accept

section dropWrite
variable (s : State)
@[simp] theorem dropWrite_params : (dropWrite s).params = s.params := rfl
@[simp] theorem dropWrite_buf : (dropWrite s).buf = s.buf := rfl
@[simp] theorem dropWrite_ie : (dropWrite s).ie = s.ie := rfl
@[simp] theorem dropWrite_done : (dropWrite s).done = s.done := rfl
@[simp] theorem dropWrite_drop : (dropWrite s).drop = true := rfl
@[simp] theorem dropWrite_vvalid : (dropWrite s).vvalid = s.vvalid := rfl
@[simp] theorem dropWrite_svalid : (dropWrite s).svalid = s.svalid := rfl
@[simp] theorem dropWrite_cmatch : (dropWrite s).cmatch = s.cmatch := rfl
@[simp] theorem dropWrite_err : (dropWrite s).err = s.err := rfl
@[simp] theorem dropWrite_len : (dropWrite s).len = s.len := rfl
@[simp] theorem dropWrite_value : (dropWrite s).value = s.value := rfl
@[simp] theorem dropWrite_consumed : (dropWrite s).consumed = s.consumed := rfl
@[simp] theorem dropWrite_errinfo : (dropWrite s).errinfo = s.errinfo := rfl
@[simp] theorem dropWrite_bodyLen : (dropWrite s).bodyLen = s.bodyLen := rfl
@[simp] theorem dropWrite_chk : (dropWrite s).chk = s.chk := rfl
@[simp] theorem dropWrite_digest : (dropWrite s).digest = s.digest := rfl
@[simp] theorem dropWrite_spend : (dropWrite s).spend = s.spend := rfl
@[simp] theorem dropWrite_view : (dropWrite s).view = s.view := rfl
@[simp] theorem dropWrite_lcmd : (dropWrite s).lcmd = s.lcmd := rfl
@[simp] theorem dropWrite_phase : (dropWrite s).phase = s.phase := rfl
@[simp] theorem dropWrite_mode : (dropWrite s).mode = s.mode := rfl
@[simp] theorem dropWrite_ptr : (dropWrite s).ptr = s.ptr := rfl
@[simp] theorem dropWrite_acc : (dropWrite s).acc = s.acc := rfl
@[simp] theorem dropWrite_shift : (dropWrite s).shift = s.shift := rfl
@[simp] theorem dropWrite_cnt : (dropWrite s).cnt = s.cnt := rfl
@[simp] theorem dropWrite_script : (dropWrite s).script = s.script := rfl
@[simp] theorem dropWrite_turns : (dropWrite s).turns = s.turns := rfl
@[simp] theorem dropWrite_responses : (dropWrite s).responses = s.responses := rfl
@[simp] theorem dropWrite_draws : (dropWrite s).draws = s.draws := rfl
end dropWrite

section invalidate
variable (s : State)
@[simp] theorem invalidate_params : (invalidate s).params = s.params := rfl
@[simp] theorem invalidate_buf : (invalidate s).buf = s.buf := rfl
@[simp] theorem invalidate_ie : (invalidate s).ie = s.ie := rfl
@[simp] theorem invalidate_done : (invalidate s).done = s.done := rfl
@[simp] theorem invalidate_drop : (invalidate s).drop = s.drop := rfl
@[simp] theorem invalidate_vvalid : (invalidate s).vvalid = s.vvalid := rfl
@[simp] theorem invalidate_svalid : (invalidate s).svalid = false := rfl
@[simp] theorem invalidate_cmatch : (invalidate s).cmatch = false := rfl
@[simp] theorem invalidate_err : (invalidate s).err = s.err := rfl
@[simp] theorem invalidate_len : (invalidate s).len = s.len := rfl
@[simp] theorem invalidate_value : (invalidate s).value = s.value := rfl
@[simp] theorem invalidate_consumed : (invalidate s).consumed = s.consumed := rfl
@[simp] theorem invalidate_errinfo : (invalidate s).errinfo = s.errinfo := rfl
@[simp] theorem invalidate_bodyLen : (invalidate s).bodyLen = s.bodyLen := rfl
@[simp] theorem invalidate_chk : (invalidate s).chk = s.chk := rfl
@[simp] theorem invalidate_digest : (invalidate s).digest = s.digest := rfl
@[simp] theorem invalidate_spend : (invalidate s).spend = s.spend := rfl
@[simp] theorem invalidate_view : (invalidate s).view = s.view := rfl
@[simp] theorem invalidate_lcmd : (invalidate s).lcmd = s.lcmd := rfl
@[simp] theorem invalidate_phase : (invalidate s).phase = s.phase := rfl
@[simp] theorem invalidate_mode : (invalidate s).mode = s.mode := rfl
@[simp] theorem invalidate_ptr : (invalidate s).ptr = s.ptr := rfl
@[simp] theorem invalidate_acc : (invalidate s).acc = s.acc := rfl
@[simp] theorem invalidate_shift : (invalidate s).shift = s.shift := rfl
@[simp] theorem invalidate_cnt : (invalidate s).cnt = s.cnt := rfl
@[simp] theorem invalidate_script : (invalidate s).script = s.script := rfl
@[simp] theorem invalidate_turns : (invalidate s).turns = s.turns := rfl
@[simp] theorem invalidate_responses : (invalidate s).responses = s.responses := rfl
@[simp] theorem invalidate_draws : (invalidate s).draws = s.draws := rfl
end invalidate

section startScan
variable (m : Mode) (n : Nat) (s : State)
@[simp] theorem startScan_params : (startScan m n s).params = s.params := rfl
@[simp] theorem startScan_buf : (startScan m n s).buf = s.buf := rfl
@[simp] theorem startScan_ie : (startScan m n s).ie = s.ie := rfl
@[simp] theorem startScan_done : (startScan m n s).done = s.done := rfl
@[simp] theorem startScan_drop : (startScan m n s).drop = s.drop := rfl
@[simp] theorem startScan_vvalid : (startScan m n s).vvalid = s.vvalid := rfl
@[simp] theorem startScan_svalid : (startScan m n s).svalid = s.svalid := rfl
@[simp] theorem startScan_cmatch : (startScan m n s).cmatch = s.cmatch := rfl
@[simp] theorem startScan_err : (startScan m n s).err = s.err := rfl
@[simp] theorem startScan_len : (startScan m n s).len = s.len := rfl
@[simp] theorem startScan_value : (startScan m n s).value = s.value := rfl
@[simp] theorem startScan_consumed : (startScan m n s).consumed = s.consumed := rfl
@[simp] theorem startScan_errinfo : (startScan m n s).errinfo = s.errinfo := rfl
@[simp] theorem startScan_bodyLen : (startScan m n s).bodyLen = s.bodyLen := rfl
@[simp] theorem startScan_chk : (startScan m n s).chk = s.chk := rfl
@[simp] theorem startScan_digest : (startScan m n s).digest = s.digest := rfl
@[simp] theorem startScan_spend : (startScan m n s).spend = s.spend := rfl
@[simp] theorem startScan_view : (startScan m n s).view = s.view := rfl
@[simp] theorem startScan_lcmd : (startScan m n s).lcmd = s.lcmd := rfl
@[simp] theorem startScan_phase : (startScan m n s).phase = .scan := rfl
@[simp] theorem startScan_mode : (startScan m n s).mode = m := rfl
@[simp] theorem startScan_ptr : (startScan m n s).ptr = BitVec.ofNat 17 n := rfl
@[simp] theorem startScan_acc : (startScan m n s).acc = 0 := rfl
@[simp] theorem startScan_shift : (startScan m n s).shift = 0 := rfl
@[simp] theorem startScan_cnt : (startScan m n s).cnt = 0 := rfl
@[simp] theorem startScan_script : (startScan m n s).script = s.script := rfl
@[simp] theorem startScan_turns : (startScan m n s).turns = s.turns := rfl
@[simp] theorem startScan_responses : (startScan m n s).responses = s.responses := rfl
@[simp] theorem startScan_draws : (startScan m n s).draws = s.draws := rfl
end startScan

section clearAll
variable (s : State)
@[simp] theorem clearAll_params : (clearAll s).params = s.params := rfl
@[simp] theorem clearAll_buf : (clearAll s).buf = s.buf := rfl
@[simp] theorem clearAll_ie : (clearAll s).ie = s.ie := rfl
@[simp] theorem clearAll_done : (clearAll s).done = s.done := rfl
@[simp] theorem clearAll_drop : (clearAll s).drop = false := rfl
@[simp] theorem clearAll_vvalid : (clearAll s).vvalid = false := rfl
@[simp] theorem clearAll_svalid : (clearAll s).svalid = false := rfl
@[simp] theorem clearAll_cmatch : (clearAll s).cmatch = false := rfl
@[simp] theorem clearAll_err : (clearAll s).err = s.err := rfl
@[simp] theorem clearAll_len : (clearAll s).len = s.len := rfl
@[simp] theorem clearAll_value : (clearAll s).value = 0 := rfl
@[simp] theorem clearAll_consumed : (clearAll s).consumed = 0 := rfl
@[simp] theorem clearAll_errinfo : (clearAll s).errinfo = s.errinfo := rfl
@[simp] theorem clearAll_bodyLen : (clearAll s).bodyLen = 0 := rfl
@[simp] theorem clearAll_chk : (clearAll s).chk = 0 := rfl
@[simp] theorem clearAll_digest : (clearAll s).digest = s.digest := rfl
@[simp] theorem clearAll_spend : (clearAll s).spend = Vector.replicate 8 0 := rfl
@[simp] theorem clearAll_view : (clearAll s).view = Vector.replicate 8 0 := rfl
@[simp] theorem clearAll_lcmd : (clearAll s).lcmd = s.lcmd := rfl
@[simp] theorem clearAll_phase : (clearAll s).phase = s.phase := rfl
@[simp] theorem clearAll_mode : (clearAll s).mode = s.mode := rfl
@[simp] theorem clearAll_ptr : (clearAll s).ptr = s.ptr := rfl
@[simp] theorem clearAll_acc : (clearAll s).acc = s.acc := rfl
@[simp] theorem clearAll_shift : (clearAll s).shift = s.shift := rfl
@[simp] theorem clearAll_cnt : (clearAll s).cnt = s.cnt := rfl
@[simp] theorem clearAll_script : (clearAll s).script = s.script := rfl
@[simp] theorem clearAll_turns : (clearAll s).turns = s.turns := rfl
@[simp] theorem clearAll_responses : (clearAll s).responses = s.responses := rfl
@[simp] theorem clearAll_draws : (clearAll s).draws = s.draws := rfl
end clearAll

section consumeByte
variable (b : Byte) (s : State)
@[simp] theorem consumeByte_params : (consumeByte b s).params = s.params := rfl
@[simp] theorem consumeByte_buf : (consumeByte b s).buf = s.buf := rfl
@[simp] theorem consumeByte_ie : (consumeByte b s).ie = s.ie := rfl
@[simp] theorem consumeByte_done : (consumeByte b s).done = s.done := rfl
@[simp] theorem consumeByte_drop : (consumeByte b s).drop = s.drop := rfl
@[simp] theorem consumeByte_vvalid : (consumeByte b s).vvalid = s.vvalid := rfl
@[simp] theorem consumeByte_svalid : (consumeByte b s).svalid = s.svalid := rfl
@[simp] theorem consumeByte_cmatch : (consumeByte b s).cmatch = s.cmatch := rfl
@[simp] theorem consumeByte_err : (consumeByte b s).err = s.err := rfl
@[simp] theorem consumeByte_len : (consumeByte b s).len = s.len := rfl
@[simp] theorem consumeByte_value : (consumeByte b s).value = s.value := rfl
@[simp] theorem consumeByte_consumed : (consumeByte b s).consumed = s.consumed := rfl
@[simp] theorem consumeByte_errinfo : (consumeByte b s).errinfo = s.errinfo := rfl
@[simp] theorem consumeByte_bodyLen : (consumeByte b s).bodyLen = s.bodyLen := rfl
@[simp] theorem consumeByte_chk : (consumeByte b s).chk = s.chk := rfl
@[simp] theorem consumeByte_digest : (consumeByte b s).digest = s.digest := rfl
@[simp] theorem consumeByte_spend : (consumeByte b s).spend = s.spend := rfl
@[simp] theorem consumeByte_view : (consumeByte b s).view = s.view := rfl
@[simp] theorem consumeByte_lcmd : (consumeByte b s).lcmd = s.lcmd := rfl
@[simp] theorem consumeByte_phase : (consumeByte b s).phase = s.phase := rfl
@[simp] theorem consumeByte_mode : (consumeByte b s).mode = s.mode := rfl
@[simp] theorem consumeByte_ptr : (consumeByte b s).ptr = BitVec.ofNat 17 (s.ptr.toNat + 1) := rfl
@[simp] theorem consumeByte_acc : (consumeByte b s).acc = BitVec.ofNat 64 (s.acc.toNat ||| contribution b s.shift.toNat) := rfl
@[simp] theorem consumeByte_shift : (consumeByte b s).shift = BitVec.ofNat 7 (min (s.shift.toNat + 7) s.params.W) := rfl
@[simp] theorem consumeByte_cnt : (consumeByte b s).cnt = BitVec.ofNat 17 (s.cnt.toNat + 1) := rfl
@[simp] theorem consumeByte_script : (consumeByte b s).script = s.script := rfl
@[simp] theorem consumeByte_turns : (consumeByte b s).turns = s.turns := rfl
@[simp] theorem consumeByte_responses : (consumeByte b s).responses = s.responses := rfl
@[simp] theorem consumeByte_draws : (consumeByte b s).draws = s.draws := rfl
end consumeByte

section latchValue
variable (v n : Nat) (s : State)
@[simp] theorem latchValue_params : (latchValue v n s).params = s.params := rfl
@[simp] theorem latchValue_buf : (latchValue v n s).buf = s.buf := rfl
@[simp] theorem latchValue_ie : (latchValue v n s).ie = s.ie := rfl
@[simp] theorem latchValue_done : (latchValue v n s).done = s.done := rfl
@[simp] theorem latchValue_drop : (latchValue v n s).drop = s.drop := rfl
@[simp] theorem latchValue_vvalid : (latchValue v n s).vvalid = true := rfl
@[simp] theorem latchValue_svalid : (latchValue v n s).svalid = s.svalid := rfl
@[simp] theorem latchValue_cmatch : (latchValue v n s).cmatch = s.cmatch := rfl
@[simp] theorem latchValue_err : (latchValue v n s).err = s.err := rfl
@[simp] theorem latchValue_len : (latchValue v n s).len = s.len := rfl
@[simp] theorem latchValue_value : (latchValue v n s).value = BitVec.ofNat 64 v := rfl
@[simp] theorem latchValue_consumed : (latchValue v n s).consumed = BitVec.ofNat 17 n := rfl
@[simp] theorem latchValue_errinfo : (latchValue v n s).errinfo = s.errinfo := rfl
@[simp] theorem latchValue_bodyLen : (latchValue v n s).bodyLen = s.bodyLen := rfl
@[simp] theorem latchValue_chk : (latchValue v n s).chk = s.chk := rfl
@[simp] theorem latchValue_digest : (latchValue v n s).digest = s.digest := rfl
@[simp] theorem latchValue_spend : (latchValue v n s).spend = s.spend := rfl
@[simp] theorem latchValue_view : (latchValue v n s).view = s.view := rfl
@[simp] theorem latchValue_lcmd : (latchValue v n s).lcmd = s.lcmd := rfl
@[simp] theorem latchValue_phase : (latchValue v n s).phase = s.phase := rfl
@[simp] theorem latchValue_mode : (latchValue v n s).mode = s.mode := rfl
@[simp] theorem latchValue_ptr : (latchValue v n s).ptr = s.ptr := rfl
@[simp] theorem latchValue_acc : (latchValue v n s).acc = s.acc := rfl
@[simp] theorem latchValue_shift : (latchValue v n s).shift = s.shift := rfl
@[simp] theorem latchValue_cnt : (latchValue v n s).cnt = s.cnt := rfl
@[simp] theorem latchValue_script : (latchValue v n s).script = s.script := rfl
@[simp] theorem latchValue_turns : (latchValue v n s).turns = s.turns := rfl
@[simp] theorem latchValue_responses : (latchValue v n s).responses = s.responses := rfl
@[simp] theorem latchValue_draws : (latchValue v n s).draws = s.draws := rfl
end latchValue

section latchSlices
variable (x : Slices) (s : State)
@[simp] theorem latchSlices_params : (latchSlices x s).params = s.params := rfl
@[simp] theorem latchSlices_buf : (latchSlices x s).buf = s.buf := rfl
@[simp] theorem latchSlices_ie : (latchSlices x s).ie = s.ie := rfl
@[simp] theorem latchSlices_done : (latchSlices x s).done = s.done := rfl
@[simp] theorem latchSlices_drop : (latchSlices x s).drop = s.drop := rfl
@[simp] theorem latchSlices_vvalid : (latchSlices x s).vvalid = true := rfl
@[simp] theorem latchSlices_svalid : (latchSlices x s).svalid = true := rfl
@[simp] theorem latchSlices_cmatch : (latchSlices x s).cmatch = s.cmatch := rfl
@[simp] theorem latchSlices_err : (latchSlices x s).err = s.err := rfl
@[simp] theorem latchSlices_len : (latchSlices x s).len = s.len := rfl
@[simp] theorem latchSlices_value : (latchSlices x s).value = BitVec.ofNat 64 x.pfx := rfl
@[simp] theorem latchSlices_consumed : (latchSlices x s).consumed = BitVec.ofNat 17 x.p := rfl
@[simp] theorem latchSlices_errinfo : (latchSlices x s).errinfo = s.errinfo := rfl
@[simp] theorem latchSlices_bodyLen : (latchSlices x s).bodyLen = BitVec.ofNat 17 x.bodyLen := rfl
@[simp] theorem latchSlices_chk : (latchSlices x s).chk = wordAt x.chk 0 := rfl
@[simp] theorem latchSlices_digest : (latchSlices x s).digest = s.digest := rfl
@[simp] theorem latchSlices_spend : (latchSlices x s).spend = keyWords x.spend := rfl
@[simp] theorem latchSlices_view : (latchSlices x s).view = keyWords x.view := rfl
@[simp] theorem latchSlices_lcmd : (latchSlices x s).lcmd = s.lcmd := rfl
@[simp] theorem latchSlices_phase : (latchSlices x s).phase = s.phase := rfl
@[simp] theorem latchSlices_mode : (latchSlices x s).mode = s.mode := rfl
@[simp] theorem latchSlices_ptr : (latchSlices x s).ptr = s.ptr := rfl
@[simp] theorem latchSlices_acc : (latchSlices x s).acc = s.acc := rfl
@[simp] theorem latchSlices_shift : (latchSlices x s).shift = s.shift := rfl
@[simp] theorem latchSlices_cnt : (latchSlices x s).cnt = s.cnt := rfl
@[simp] theorem latchSlices_script : (latchSlices x s).script = s.script := rfl
@[simp] theorem latchSlices_turns : (latchSlices x s).turns = s.turns := rfl
@[simp] theorem latchSlices_responses : (latchSlices x s).responses = s.responses := rfl
@[simp] theorem latchSlices_draws : (latchSlices x s).draws = s.draws := rfl
end latchSlices

section resetBlock
variable (s : State)
@[simp] theorem resetBlock_params : (resetBlock s).params = s.params := rfl
@[simp] theorem resetBlock_buf : (resetBlock s).buf = State.reset.buf := rfl
@[simp] theorem resetBlock_ie : (resetBlock s).ie = State.reset.ie := rfl
@[simp] theorem resetBlock_done : (resetBlock s).done = State.reset.done := rfl
@[simp] theorem resetBlock_drop : (resetBlock s).drop = State.reset.drop := rfl
@[simp] theorem resetBlock_vvalid : (resetBlock s).vvalid = State.reset.vvalid := rfl
@[simp] theorem resetBlock_svalid : (resetBlock s).svalid = State.reset.svalid := rfl
@[simp] theorem resetBlock_cmatch : (resetBlock s).cmatch = State.reset.cmatch := rfl
@[simp] theorem resetBlock_err : (resetBlock s).err = State.reset.err := rfl
@[simp] theorem resetBlock_len : (resetBlock s).len = State.reset.len := rfl
@[simp] theorem resetBlock_value : (resetBlock s).value = State.reset.value := rfl
@[simp] theorem resetBlock_consumed : (resetBlock s).consumed = State.reset.consumed := rfl
@[simp] theorem resetBlock_errinfo : (resetBlock s).errinfo = State.reset.errinfo := rfl
@[simp] theorem resetBlock_bodyLen : (resetBlock s).bodyLen = State.reset.bodyLen := rfl
@[simp] theorem resetBlock_chk : (resetBlock s).chk = State.reset.chk := rfl
@[simp] theorem resetBlock_digest : (resetBlock s).digest = State.reset.digest := rfl
@[simp] theorem resetBlock_spend : (resetBlock s).spend = State.reset.spend := rfl
@[simp] theorem resetBlock_view : (resetBlock s).view = State.reset.view := rfl
@[simp] theorem resetBlock_lcmd : (resetBlock s).lcmd = State.reset.lcmd := rfl
@[simp] theorem resetBlock_phase : (resetBlock s).phase = State.reset.phase := rfl
@[simp] theorem resetBlock_mode : (resetBlock s).mode = State.reset.mode := rfl
@[simp] theorem resetBlock_ptr : (resetBlock s).ptr = State.reset.ptr := rfl
@[simp] theorem resetBlock_acc : (resetBlock s).acc = State.reset.acc := rfl
@[simp] theorem resetBlock_shift : (resetBlock s).shift = State.reset.shift := rfl
@[simp] theorem resetBlock_cnt : (resetBlock s).cnt = State.reset.cnt := rfl
@[simp] theorem resetBlock_script : (resetBlock s).script = s.script := rfl
@[simp] theorem resetBlock_turns : (resetBlock s).turns = s.turns := rfl
@[simp] theorem resetBlock_responses : (resetBlock s).responses = s.responses := rfl
@[simp] theorem resetBlock_draws : (resetBlock s).draws = s.draws := rfl
end resetBlock

end Sys2Proof.Machine
end

