-- ==== Sys2Proof/Laws/Step.lean ====
section
/-! SUPPORT. What each step can do, said once: the engine steps, the transactions, the host's move, the global step. -/

namespace Sys2Proof.Machine

theorem busy_eq_true {s : State} : s.busy = true ↔ s.phase ≠ .idle := by
  unfold State.busy; cases s.phase <;> simp

theorem busy_eq_false {s : State} : s.busy = false ↔ s.phase = .idle := by
  unfold State.busy; cases s.phase <;> simp

/-- What a `SCAN` step can do (R78). -/
theorem scanStep_next {s t : State} (h : scanStep s = .next t) :
    (s.len.toNat ≤ s.ptr.toNat ∧ t = complete (latched s) .malformedVarint s.ptr.toNat s) ∨
      ∃ b, s.ptr.toNat < s.len.toNat ∧ readByte s s.ptr.toNat = .ok b ∧
        ((2 ^ s.params.W ≤ contribution b s.shift.toNat ∧
            t = complete (latched s) .varintOverflow s.ptr.toNat s) ∨
          (contribution b s.shift.toNat < 2 ^ s.params.W ∧ continues b = true ∧ t = consumeByte b s) ∨
          (contribution b s.shift.toNat < 2 ^ s.params.W ∧ continues b = false ∧
            t = finishScan (consumeByte b s))) := by
  unfold scanStep at h
  split at h
  · next h1 => cases h; exact .inl ⟨h1, rfl⟩
  · next h1 =>
    right
    split at h
    · cases h
    · next b hb =>
      refine ⟨b, by omega, hb, ?_⟩
      split at h
      · next h2 => cases h; exact .inl ⟨h2, rfl⟩
      · next h2 =>
        split at h
        · next h3 => cases h; exact .inr (.inl ⟨by omega, h3, rfl⟩)
        · next h3 => cases h; exact .inr (.inr ⟨by omega, by simpa using h3, rfl⟩)

/-- When a `SCAN` step faults (R118). -/
theorem scanStep_fault {s : State} {f : Fault} (h : scanStep s = .fault f) :
    s.ptr.toNat < s.len.toNat ∧ readByte s s.ptr.toNat = .error f := by
  unfold scanStep at h
  split at h
  · cases h
  · next h1 =>
    split at h
    · next hb => cases h; exact ⟨by omega, hb⟩
    · split at h
      · cases h
      · split at h <;> cases h

/-- The end of a scan (R78). -/
theorem finishScan_cases (s : State) :
    (s.mode = .mv ∧ finishScan s = complete (latched s) .noError 0 (latchValue s.acc.toNat s.cnt.toNat s)) ∨
      (s.mode = .ms ∧ finishScan s = { s with phase := .check }) := by
  unfold finishScan
  cases s.mode <;> simp

/-- What a `CHECK` step can do (R88). -/
theorem checkStep_next {s t : State} (h : checkStep s = .next t) :
    (s.len.toNat < s.cnt.toNat + 68 ∧ t = complete (latched s) .truncatedAddress (s.cnt.toNat + 68) s) ∨
      ∃ bs, s.cnt.toNat + 68 ≤ s.len.toNat ∧ readBytes s s.cnt.toNat 68 = .ok bs ∧
        t = complete (latched s) .noError 0 (latchSlices (cutSlices s.acc.toNat s.cnt.toNat bs) s) := by
  unfold checkStep at h
  have hq : requiredLength s.cnt.toNat = s.cnt.toNat + 68 := rfl
  rw [hq] at h
  split at h
  · next h1 => cases h; exact .inl ⟨h1, rfl⟩
  · next h1 =>
    split at h
    · cases h
    · next bs hb => cases h; exact .inr ⟨bs, by omega, hb, rfl⟩

/-- When a `CHECK` step faults (R118). -/
theorem checkStep_fault {s : State} {f : Fault} (h : checkStep s = .fault f) :
    s.cnt.toNat + 68 ≤ s.len.toNat ∧ readBytes s s.cnt.toNat 68 = .error f := by
  unfold checkStep at h
  have hq : requiredLength s.cnt.toNat = s.cnt.toNat + 68 := rfl
  rw [hq] at h
  split at h
  · cases h
  · next h1 =>
    split at h
    · next hb => cases h; exact ⟨by omega, hb⟩
    · cases h

/-- What `CHKCMP` can do (R91). -/
theorem execChkcmp_cases (s : State) :
    (s.svalid = false ∧ execChkcmp s = .next (complete (some .chkcmp) .noSlice 0 { s with cmatch := false })) ∨
      (s.svalid = true ∧ differenceMask s.chk s.digest = 0 ∧
        execChkcmp s = .next (complete (some .chkcmp) .noError 0 { s with cmatch := true })) ∨
      (s.svalid = true ∧ differenceMask s.chk s.digest ≠ 0 ∧
        execChkcmp s = .next (complete (some .chkcmp) .checksumMismatch (differenceMask s.chk s.digest)
          { s with cmatch := false })) := by
  unfold execChkcmp
  cases h : s.svalid
  · simp
  · by_cases h2 : differenceMask s.chk s.digest = 0 <;> simp [h2]

/-- What the engine's step can do (R96, R97). -/
theorem engineStep_next {s t : State} (h : engineStep s = .next t) :
    (s.phase = .idle ∧ t = s) ∨
      (s.phase = .decode ∧ ∃ i, decode s.lcmd = .ok i ∧ exec i s = .next t) ∨
      (s.phase = .decode ∧ latched s = none ∧ t = complete none .illegalCommand s.lcmd.toNat s) ∨
      (s.phase = .scan ∧ scanStep s = .next t) ∨
      (s.phase = .check ∧ checkStep s = .next t) := by
  unfold engineStep at h
  cases hp : s.phase with
  | idle => simp [hp] at h; simp [h]
  | decode =>
    simp only [hp] at h
    cases hd : decode s.lcmd with
    | ok i => simp only [hd] at h; simp [h]
    | error e => simp only [hd, illegalStep, Host.Outcome.next.injEq] at h; simp [latched, hd, Except.toOption, h]
  | scan => simp only [hp] at h; simp [h]
  | check => simp only [hp] at h; simp [h]

/-- What a transaction's write can do: nothing (`SLVERR`), a drop (R94), or the register's effect. -/
theorem busWrite_cases (a : Nat) (d : Word) (s : State) :
    busWrite a d s = (.write .slverr, s) ∨
      (s.busy = true ∧ busWrite a d s = (.write .ok, dropWrite s)) ∨
      ∃ r, target s.params.N a = some r ∧ writeRefused r d s = false ∧ (s.busy = true → r.droppable = false) ∧
        busWrite a d s = (.write .ok, applyWrite r d s) := by
  unfold busWrite
  cases target s.params.N a with
  | none => simp
  | some r =>
    cases h1 : writeRefused r d s <;> cases h2 : s.busy <;> cases h3 : r.droppable <;> simp [h1, h3]

/-- A read answers, and changes at most the count of draws (R52). -/
theorem busRead_state (a : Nat) (s : State) : (busRead a s).2 = { s with draws := (busRead a s).2.draws } := by
  unfold busRead
  cases target s.params.N a with
  | none => rfl
  | some r =>
    simp only
    unfold afterRead
    cases r <;> simp only
    unfold afterHostWord
    split <;> rfl

/-- What the host's move can do (R53, R69). -/
theorem hostStep_cases (s : State) :
    (s.script = [] ∧ hostStep s = s) ∨
      (∃ a rest, s.script = .read a :: rest ∧ hostStep s = note (busRead a { s with script := rest })) ∨
      (∃ a d rest, s.script = .write a d :: rest ∧ hostStep s = note (busWrite a d { s with script := rest })) ∨
      (∃ rest, s.script = .wait :: rest ∧ s.busy = true ∧ hostStep s = note (busRead 0x00C s)) ∨
      (∃ rest, s.script = .wait :: rest ∧ s.busy = false ∧
        hostStep s = note (busRead 0x00C { s with script := rest })) := by
  unfold hostStep
  cases h : s.script with
  | nil => simp
  | cons op rest =>
    cases op with
    | read a => simp
    | write a d => simp
    | wait => cases h2 : s.busy <;> simp [Reg.offset]

/-- What the global step can do (R53, R117). -/
theorem step_next {s t : State} (h : step s = .next t) :
    (∃ rest, s.turns = .host :: rest ∧ t = hostStep { s with turns := rest }) ∨
      (∃ rest, s.turns = .engine :: rest ∧ engineStep { s with turns := rest } = .next t) ∨
      (∃ rest, s.turns = .rst :: rest ∧ t = resetBlock { s with turns := rest }) ∨
      (s.turns = [] ∧ s.busy = true ∧ engineStep s = .next t) ∨
      (s.turns = [] ∧ s.busy = false ∧ t = hostStep s) := by
  unfold step at h
  cases ht : s.turns with
  | nil =>
    simp only [ht] at h
    cases hb : s.busy <;> simp [hb] at h <;> simp [h]
  | cons u rest =>
    cases u <;> simp only [ht] at h
    · cases h; simp
    · simp [h]
    · cases h; simp

end Sys2Proof.Machine
end

