-- ==== Sys2Proof/Laws/Varint.lean ====
section
/-! SUPPORT. The varint parse: its arithmetic (R71, R74, R78), what it depends on, and what it can answer. -/

namespace Sys2Proof.Machine

/-- `W ≤ 64` (R6). -/
theorem W_le (p : Params) : p.W ≤ 64 := by have := p.wPred.isLt; simp only [Params.W]; omega

/-- `1 ≤ W` (R6). -/
theorem W_pos (p : Params) : 1 ≤ p.W := by simp [Params.W]

/-- `N ≤ 65536` (R7). -/
theorem N_le (p : Params) : p.N ≤ 65536 := by have := p.nWordsPred.isLt; simp [Params.N]; omega

/-- A group is its byte modulo 128 (R71). -/
theorem group_eq (b : Byte) : group b = b.toNat % 128 := by
  unfold group; rw [BitVec.toNat_and]; exact Nat.and_two_pow_sub_one_eq_mod b.toNat 7

/-- A group is below 128. -/
theorem group_lt (b : Byte) : group b < 128 := by rw [group_eq]; omega

/-- A contribution is the group times a power of two (R71). -/
theorem contribution_eq (b : Byte) (n : Nat) : contribution b n = b.toNat % 128 * 2 ^ n := by
  rw [contribution, group_eq, Nat.shiftLeft_eq]

/-- Bit 7 is set exactly from 128 on (R72). -/
theorem continues_iff (b : Byte) : continues b = true ↔ 128 ≤ b.toNat := by
  have := b.isLt
  simp only [continues, BitVec.getLsbD, Nat.testBit_eq_decide_div_mod_eq, decide_eq_true_eq]; omega

/-- The saturated `SHIFT` decides overflow as `7*k` does, and gives the same contribution where there is none (R38, R78). -/
theorem contribution_saturate (b : Byte) (n W : Nat) : (2 ^ W ≤ contribution b (min n W) ↔ 2 ^ W ≤ contribution b n) ∧
   (contribution b (min n W) < 2 ^ W → contribution b (min n W) = contribution b n) := by
  by_cases h : n ≤ W
  · simp [Nat.min_eq_left h]
  · have h' : min n W = W := by omega
    rw [h', contribution_eq, contribution_eq]
    by_cases g : b.toNat % 128 = 0
    · simp [g]
    · have g1 : 1 ≤ b.toNat % 128 := by omega
      have hp : 2 ^ W ≤ b.toNat % 128 * 2 ^ W := Nat.le_mul_of_pos_left _ g1
      have hn : 2 ^ W ≤ 2 ^ n := Nat.pow_le_pow_right (by omega) (by omega)
      have hp2 : 2 ^ n ≤ b.toNat % 128 * 2 ^ n := Nat.le_mul_of_pos_left _ g1
      constructor
      · constructor
        · intro _; omega
        · intro _; exact hp
      · intro hlt; omega

/-- The OR of R70 is a sum: a group stands above all earlier ones (R71). -/
theorem or_eq_add {acc : Nat} (b : Byte) (k : Nat) (h : acc < 2 ^ k)
    : acc ||| contribution b k = acc + b.toNat % 128 * 2 ^ k := by
  rw [Nat.or_comm, contribution, group_eq, ← Nat.shiftLeft_add_eq_or_of_lt h, Nat.shiftLeft_eq, Nat.add_comm]

/-- Where no contribution overflows, the value stays below 2^W (R74). -/
theorem add_lt_of_fits {acc g k W : Nat} (h : acc < 2 ^ k) (hW : acc < 2 ^ W) (hc : g * 2 ^ k < 2 ^ W)
    : acc + g * 2 ^ k < 2 ^ W := by
  by_cases hk : k ≤ W
  · obtain ⟨d, rfl⟩ := Nat.exists_eq_add_of_le hk
    rw [Nat.pow_add] at *
    have hp : 0 < 2 ^ k := Nat.two_pow_pos k
    have : g < 2 ^ d := by
      by_contra hge
      have := Nat.mul_le_mul_right (2 ^ k) (Nat.le_of_not_lt hge)
      rw [Nat.mul_comm (2^d)] at this
      omega
    have h2 : (g + 1) * 2 ^ k ≤ 2 ^ d * 2 ^ k := Nat.mul_le_mul_right _ this
    rw [Nat.mul_comm (2^d), Nat.add_mul] at h2
    omega
  · have : 2 ^ W ≤ 2 ^ k := Nat.pow_le_pow_right (by omega) (by omega)
    have g0 : g = 0 := by
      by_contra hg
      have := Nat.le_mul_of_pos_left (2 ^ k) (Nat.pos_of_ne_zero hg)
      omega
    simp [g0, hW]

/-- One more group in the sum of R71. -/
theorem groupSum_succ (s : State) (off n : Nat) : groupSum s off (n+1) = groupSum s off n + byteAt s (off + n) % 128 * 2 ^ (7 * n) := by
  simp [groupSum, Finset.sum_range_succ]

/-- A written byte as a number. -/
theorem byteAt_of_read {s : State} {i : Nat} {b : Byte} (h : s.buf.read i = some b)
    : byteAt s i = b.toNat := by simp [byteAt, h]

/-- The parse depends on `BUF`, `LEN`, W and N alone (R70). -/
theorem decodeVarintFrom_congr {s t : State} (hp : s.params = t.params) (hl : s.len = t.len) (hb : s.buf = t.buf)
    (off fuel acc k) :
   decodeVarintFrom s off acc k fuel = decodeVarintFrom t off acc k fuel := by
  induction fuel generalizing acc k with
  | zero => rfl
  | succ n ih => simp only [decodeVarintFrom, hl, hp, readByte_congr hp (congrArg (·.read (off + k)) hb), ih]

/-- The parse depends on `BUF`, `LEN`, W and N alone (R70). -/
theorem decodeVarint_congr {s t : State} (hp : s.params = t.params) (hl : s.len = t.len) (hb : s.buf = t.buf) (off) :
   decodeVarint s off = decodeVarint t off := by
  unfold decodeVarint; rw [hl]; exact decodeVarintFrom_congr hp hl hb _ _ _ _

/-- On a written input the parse meets no model fault (R118, R119). -/
theorem decodeVarintFrom_written {s : State} (hN : s.len.toNat ≤ s.params.N) (hw : InputWritten s) (off fuel acc k) :
   ∃ r, decodeVarintFrom s off acc k fuel = .ok r := by
  induction fuel generalizing acc k with
  | zero => exact ⟨_, rfl⟩
  | succ n ih =>
    rw [decodeVarintFrom]
    split
    · exact ⟨_, rfl⟩
    · next h =>
      obtain ⟨b, hb⟩ := Option.isSome_iff_exists.1 (hw (off + k) (by omega))
      rw [readByte_eq_ok.2 ⟨by omega, hb⟩]
      simp only
      split
      · exact ⟨_, rfl⟩
      · split
        · exact ih _ _
        · exact ⟨_, rfl⟩

/-- A successful parse reads no byte past the ones it counts (R72): another input with the same bytes there parses alike. -/
theorem parse_stable {s t : State} {off : Nat} (hp : s.params = t.params) : ∀ (fuel fuel' acc k v n : Nat),
   decodeVarintFrom s off acc k fuel = .ok (.ok v n) → off + n ≤ t.len.toNat → n ≤ k + fuel' →
   (∀ i, i < off + n → t.buf.read i = s.buf.read i) → decodeVarintFrom t off acc k fuel' = .ok (.ok v n) ∧ k < n := by
  intro fuel
  induction fuel with
  | zero => intro fuel' acc k v n h; simp [decodeVarintFrom] at h
  | succ f ih =>
    intro fuel' acc k v n h hl hf hb
    rw [decodeVarintFrom] at h
    split at h
    · cases h
    · next hlt =>
      split at h
      · cases h
      · next b hb2 =>
        split at h
        · cases h
        · next hov =>
          split at h
          · next hc =>
            have hkn : k + 1 < n := by
              have : k + 1 < n := by
                by_contra hcon
                exact absurd (ih (n + 1) _ (k+1) v n h hl (by omega) hb).2 hcon
              exact this
            obtain ⟨g, rfl⟩ : ∃ g, fuel' = g + 1 := ⟨fuel' - 1, by omega⟩
            have := ih g _ (k+1) v n h hl (by omega) hb
            rw [decodeVarintFrom, if_neg (by omega), ← readByte_congr hp (hb (off + k) (by omega)).symm, hb2]
            simp only [← hp, if_neg hov, if_pos hc]
            exact ⟨this.1, by omega⟩
          · next hc =>
            cases h
            obtain ⟨g, rfl⟩ : ∃ g, fuel' = g + 1 := ⟨fuel' - 1, by omega⟩
            rw [decodeVarintFrom, if_neg (by omega), ← readByte_congr hp (hb (off + k) (by omega)).symm, hb2]
            simp only [← hp, if_neg hov, if_neg hc]
            exact ⟨trivial, by omega⟩

/-- What a parse that has consumed `k` bytes can still answer (R71 to R75). -/
def ParseSpec (s : State) (off k : Nat) : ParseResult → Prop
 | .ok v n => k < n ∧ off + n ≤ s.len.toNat ∧ v = groupSum s off n ∧ v < 2 ^ s.params.W ∧ v < 2 ^ (7 * n) ∧ (∀ j, k ≤ j → j < n → ∃ b, s.buf.read (off + j) = some b ∧ (128 ≤ b.toNat ↔ j + 1 < n))
 | .err e info => (e = .malformedVarint ∧ info = max (off + k) s.len.toNat ∧ groupSum s off (s.len.toNat - off) < 2 ^ s.params.W ∧
      (∀ i, off + k ≤ i → i < s.len.toNat → ∃ b, s.buf.read i = some b ∧ 128 ≤ b.toNat)) ∨
    (e = .varintOverflow ∧ off + k ≤ info ∧ info < s.len.toNat ∧
      groupSum s off (info - off) < 2 ^ s.params.W ∧ 2 ^ s.params.W ≤ groupSum s off (info - off + 1) ∧
      byteAt s info % 128 ≠ 0 ∧
      (∀ i, off + k ≤ i → i < info → ∃ b, s.buf.read i = some b ∧ 128 ≤ b.toNat))

/-- Everything the parse can answer, from any of its rounds (R71 to R75). -/
theorem decodeVarintFrom_spec {s : State} {off : Nat} : ∀ (fuel acc k : Nat)
    (r : ParseResult), s.len.toNat - (off + k) + 1 ≤ fuel →
   decodeVarintFrom s off acc k fuel = .ok r → acc = groupSum s off k → acc < 2 ^ (7 * k) → acc < 2 ^ s.params.W → (k = 0 ∨ off + k ≤ s.len.toNat) →
   ParseSpec s off k r := by
  intro fuel
  induction fuel with
  | zero => intro acc k r hf; omega
  | succ n ih =>
    intro acc k r hf h ha h7 hW hk
    rw [decodeVarintFrom] at h
    split at h
    · next hle =>
      cases h
      left
      refine ⟨rfl, by omega, ?_, fun i h1 h2 => by omega⟩
      rcases hk with rfl | hk
      · have : s.len.toNat - off = 0 := by omega
        rw [this]; rw [← ha]; exact hW
      · have : s.len.toNat - off = k := by omega
        rw [this, ← ha]; exact hW
    · next hlt =>
      split at h
      · cases h
      · next b hb =>
        obtain ⟨hN, hb⟩ := readByte_eq_ok.1 hb
        have hba := byteAt_of_read hb
        split at h
        · next hov =>
          cases h
          right
          rw [contribution_eq] at hov
          have e : off + k - off = k := by omega
          refine ⟨rfl, by omega, by omega, by rw [e, ← ha]; exact hW, ?_, ?_, fun i h1 h2 => by omega⟩
          · rw [e, groupSum_succ, hba]; omega
          · rw [hba]; intro h0; rw [h0] at hov; have := Nat.two_pow_pos s.params.W; omega
        · next hov =>
          rw [contribution_eq] at hov
          have hor := or_eq_add b (7 * k) h7
          have hsum : acc + b.toNat % 128 * 2 ^ (7 * k) = groupSum s off (k + 1) := by rw [groupSum_succ, hba, ha]
          have hWn := add_lt_of_fits h7 hW (Nat.lt_of_not_le hov)
          have h7n : acc + b.toNat % 128 * 2 ^ (7 * k) < 2 ^ (7 * (k + 1)) := by
            have : 2 ^ (7 * (k + 1)) = 128 * 2 ^ (7 * k) := by rw [Nat.mul_add, Nat.pow_add]; omega
            rw [this]
            have h1 : b.toNat % 128 + 1 ≤ 128 := by omega
            have := Nat.mul_le_mul_right (2 ^ (7 * k)) h1
            rw [Nat.add_mul] at this
            omega
          split at h
          · next hc =>
            rw [hor] at h
            have := ih _ (k + 1) r (by omega) h hsum h7n hWn (by omega)
            have hc' := (continues_iff b).1 hc
            cases r with
            | ok v m =>
              obtain ⟨p1, p2, p3, p4, p4', p5⟩ := this
              refine ⟨by omega, p2, p3, p4, p4', fun j h1 h2 => ?_⟩
              by_cases hj : j = k
              · subst hj; exact ⟨b, hb, by omega⟩
              · exact p5 j (by omega) h2
            | err e info =>
              rcases this with ⟨p1, p2, p3, p4⟩ | ⟨p1, p2, p3, p4, p5, p6, p7⟩
              · left
                refine ⟨p1, by omega, p3, fun i h1 h2 => ?_⟩
                by_cases hj : i = off + k
                · subst hj; exact ⟨b, hb, hc'⟩
                · exact p4 i (by omega) h2
              · right
                refine ⟨p1, by omega, p3, p4, p5, p6, fun i h1 h2 => ?_⟩
                by_cases hj : i = off + k
                · subst hj; exact ⟨b, hb, hc'⟩
                · exact p7 i (by omega) h2
          · next hc =>
            cases h
            have hc' : ¬ 128 ≤ b.toNat := fun h => hc ((continues_iff b).2 h)
            rw [hor]
            refine ⟨by omega, by omega, hsum, hWn, h7n, fun j h1 h2 => ?_⟩
            have : j = k := by omega
            subst this; exact ⟨b, hb, by omega⟩

/-- The rest of a parse stops only at a byte the parse reads that nothing has written (R118). -/
theorem decodeVarintFrom_error {s : State} {off : Nat} : ∀ (fuel acc k : Nat) (f : Fault),
    decodeVarintFrom s off acc k fuel = .error f → acc = groupSum s off k → acc < 2 ^ (7 * k) → acc < 2 ^ s.params.W →
    s.len.toNat ≤ s.params.N →
    (∀ j, off ≤ j → j < off + k → ∃ b, s.buf.read j = some b ∧ 128 ≤ b.toNat) →
    f = .unwrittenByte ∧ ∃ i, ParseReads s off i ∧ s.buf.read i = none := by
  intro fuel
  induction fuel with
  | zero => intro acc k f h; cases h
  | succ n ih =>
    intro acc k f h ha h7 hW hN hk
    rw [decodeVarintFrom] at h
    split at h
    · cases h
    · next hlt =>
      split at h
      · next g hg =>
        cases h
        rcases readByte_eq_error.1 hg with ⟨h3, _⟩ | ⟨_, h4, h5⟩
        · omega
        · exact ⟨h5, off + k, ⟨by omega, by omega, hk, by rw [Nat.add_sub_cancel_left, ← ha]; exact hW⟩, h4⟩
      · next b hb =>
        obtain ⟨_, hb⟩ := readByte_eq_ok.1 hb
        split at h
        · cases h
        · next hov =>
          rw [contribution_eq] at hov
          split at h
          · next hc =>
            rw [or_eq_add b (7 * k) h7] at h
            refine ih _ (k + 1) f h (by rw [groupSum_succ, byteAt_of_read hb, ha]) ?_
              (add_lt_of_fits h7 hW (Nat.lt_of_not_le hov)) hN ?_
            · have : 2 ^ (7 * (k + 1)) = 128 * 2 ^ (7 * k) := by rw [Nat.mul_add, Nat.pow_add]; omega
              rw [this]
              have h1 : b.toNat % 128 + 1 ≤ 128 := by omega
              have := Nat.mul_le_mul_right (2 ^ (7 * k)) h1
              rw [Nat.add_mul] at this
              omega
            · intro j h1 h2
              by_cases hj : j = off + k
              · subst hj; exact ⟨b, hb, (continues_iff b).1 hc⟩
              · exact hk j h1 (by omega)
          · cases h

/-- A parse stops only at a byte it reads that nothing has written (R118). -/
theorem decodeVarint_error {s : State} {off : Nat} {f : Fault} (h : decodeVarint s off = .error f)
    (hN : s.len.toNat ≤ s.params.N) : f = .unwrittenByte ∧ ∃ i, ParseReads s off i ∧ s.buf.read i = none :=
  decodeVarintFrom_error _ 0 0 f h (by simp [groupSum]) (by simp) (Nat.two_pow_pos _) hN fun j h1 h2 => by omega

/-- `decode(LCMD)` of a legal word (R98). -/
theorem latched_of_decode {s : State} {i : Instr} (h : decode s.lcmd = .ok i) : latched s = some i := by
  simp [latched, h, Except.toOption]

/-- `decode(LCMD)` depends on `LCMD` alone. -/
theorem latched_congr {s t : State} (h : t.lcmd = s.lcmd) : latched t = latched s := by simp [latched, h]

/-- The scan registers after `CNT` bytes from `off` (R38, R78). -/
structure ScanRegs (s : State) (off : Nat) : Prop where
  ptr : s.ptr.toNat = off + s.cnt.toNat
  shift : s.shift.toNat = min (7 * s.cnt.toNat) s.params.W

/-- The scan registers after one more byte that fits (R78). -/
theorem consume_facts {s : State} {off : Nat} {b : Byte} (hr : ScanRegs s off) (hl : s.ptr.toNat < s.len.toNat)
   (hc : contribution b s.shift.toNat < 2 ^ s.params.W) :
   ScanRegs (consumeByte b s) off ∧ (consumeByte b s).cnt.toNat = s.cnt.toNat + 1 ∧ (consumeByte b s).ptr.toNat = s.ptr.toNat + 1 ∧
   (consumeByte b s).acc.toNat = s.acc.toNat ||| contribution b (7 * s.cnt.toNat) := by
  have h1 := s.len.isLt
  have h2 := s.acc.isLt
  have hW := W_le s.params
  have hcnt : (consumeByte b s).cnt.toNat = s.cnt.toNat + 1 := by
    simp only [consumeByte_cnt, BitVec.toNat_ofNat]; have := hr.ptr; omega
  have hptr : (consumeByte b s).ptr.toNat = s.ptr.toNat + 1 := by
    simp only [consumeByte_ptr, BitVec.toNat_ofNat]; omega
  refine ⟨⟨?_, ?_⟩, hcnt, hptr, ?_⟩
  · rw [hcnt, hptr, hr.ptr]; omega
  · rw [hcnt]; simp only [consumeByte_shift, BitVec.toNat_ofNat, consumeByte_params, hr.shift]; omega
  · simp only [consumeByte_acc, BitVec.toNat_ofNat]
    have hs := hr.shift
    rw [hs] at hc ⊢
    have hc2 := (contribution_saturate b _ _).2 hc
    rw [hc2]
    rw [hc2] at hc
    have : 2 ^ s.params.W ≤ 2 ^ 64 := Nat.pow_le_pow_right (by omega) hW
    exact Nat.mod_eq_of_lt (Nat.or_lt_two_pow h2 (by omega))

/-- The scan registers at the start (R97). -/
theorem startScan_regs {m off s} (h : off ≤ 65535) : ScanRegs (startScan m off s) off := by
  refine ⟨?_, ?_⟩ <;> simp; omega

/-- At the start of a scan the rest of the parse is the whole parse (R70, R97). -/
theorem decodeVarint_start (m off) (s : State) (h : off ≤ 65535)
    : decodeVarint s off = decodeVarintFrom (startScan m off s) off (startScan m off s).acc.toNat (startScan m off s).cnt.toNat ((startScan m off s).len.toNat - (startScan m off s).ptr.toNat + 1) := by
  have : (BitVec.ofNat 17 off).toNat = off := by simp; omega
  simp only [startScan_acc, startScan_cnt, startScan_len, startScan_ptr, this]
  exact decodeVarintFrom_congr (s := s) (t := startScan m off s) rfl rfl rfl off (s.len.toNat - off + 1) 0 0

/-- What the end of a scan leaves, up to the scan registers (R78). -/
def ScanEnds (s : State) : ParseResult → State → Prop
  | .err e info, u => SameButScan (complete (latched s) e info s) u
  | .ok v n, u => (s.mode = .mv → SameButScan (complete (latched s) .noError 0 (latchValue v n s)) u) ∧
      (s.mode = .ms → SameButScan { s with phase := .check } u ∧ u.mode = .ms ∧ u.acc.toNat = v ∧ u.cnt.toNat = n)

/-- The end of a scan does not depend on the scan registers before it. -/
theorem ScanEnds_congr {s u : State} {b} {r} (h : ScanEnds (consumeByte b s) r u) : ScanEnds s r u := by
  cases r with
  | err e info =>
    simp only [ScanEnds, SameButScan] at *
    rw [h]; rfl
  | ok v n =>
    obtain ⟨h1, h2⟩ := h
    refine ⟨fun hm => ?_, fun hm => ?_⟩
    · have := h1 hm
      simp only [SameButScan] at *
      rw [this]; rfl
    · obtain ⟨h3, h4⟩ := h2 hm
      refine ⟨?_, h4⟩
      simp only [SameButScan] at *
      rw [h3]; rfl

/-- The engine's `SCAN` steps give what the rest of the parse gives (R78, R103). -/
theorem scan_run : ∀ (n : Nat) (s : State) (off : Nat), s.len.toNat - s.ptr.toNat = n → s.phase = .scan →
    ScanRegs s off →
    match decodeVarintFrom s off s.acc.toNat s.cnt.toNat (n + 1) with
    | .error f => ∃ k, k ≤ n + 1 ∧ engineRun k s = .fault f
    | .ok r => ∃ k u, 1 ≤ k ∧ k ≤ n + 1 ∧ engineRun k s = .next u ∧ ScanEnds s r u := by
  intro n
  induction n with
  | zero =>
    intro s off hn hp hr
    have hle : s.len.toNat ≤ off + s.cnt.toNat := by rw [← hr.ptr]; omega
    have hle' : s.len.toNat ≤ s.ptr.toNat := by omega
    simp only [decodeVarintFrom, if_pos hle]
    refine ⟨1, complete (latched s) .malformedVarint s.ptr.toNat s, by omega, by omega, ?_, ?_⟩
    · simp [engineRun, engineStep, hp, scanStep, hle']
    · simp only [ScanEnds, SameButScan, hr.ptr]
  | succ n ih =>
    intro s off hn hp hr
    have hlt : ¬ s.len.toNat ≤ off + s.cnt.toNat := by rw [← hr.ptr]; omega
    have hlt' : ¬ s.len.toNat ≤ s.ptr.toNat := by omega
    rw [decodeVarintFrom, if_neg hlt, ← hr.ptr]
    have hsat := fun b => contribution_saturate b (7 * s.cnt.toNat) s.params.W
    simp only [← hr.shift] at hsat
    cases hb : readByte s s.ptr.toNat with
    | error f =>
      exact ⟨1, by omega, by simp [engineRun, engineStep, hp, scanStep, hlt', hb]⟩
    | ok b =>
      simp only
      by_cases hov : 2 ^ s.params.W ≤ contribution b (7 * s.cnt.toNat)
      · rw [if_pos hov]
        have hov' := (hsat b).1.2 hov
        refine ⟨1, complete (latched s) .varintOverflow s.ptr.toNat s, by omega, by omega, ?_, ?_⟩
        · simp [engineRun, engineStep, hp, scanStep, hlt', hb, hov']
        · simp only [ScanEnds, SameButScan]
      · rw [if_neg hov]
        have hov' : ¬ 2 ^ s.params.W ≤ contribution b s.shift.toNat := fun h => hov ((hsat b).1.1 h)
        obtain ⟨f1, f2, f3, f4⟩ := consume_facts (b := b) hr (by omega) (by omega)
        by_cases hc : continues b = true
        · rw [if_pos hc]
          have hstep : engineStep s = .next (consumeByte b s) := by simp [engineStep, hp, scanStep, hlt', hb, hov', hc]
          have := ih (consumeByte b s) off (by simp only [consumeByte_len, f3]; omega) (by simpa using hp) f1
          rw [f4, f2, decodeVarintFrom_congr (s := consumeByte b s) (t := s) rfl rfl rfl] at this
          cases hd : decodeVarintFrom s off (s.acc.toNat ||| contribution b (7 * s.cnt.toNat)) (s.cnt.toNat + 1) (n + 1) with
          | error f =>
            rw [hd] at this
            obtain ⟨k, h1, h2⟩ := this
            exact ⟨k + 1, by omega, by simp [engineRun, hstep, h2]⟩
          | ok r =>
            rw [hd] at this
            obtain ⟨k, u, h0, h1, h2, h3⟩ := this
            exact ⟨k + 1, u, by omega, by omega, by simp [engineRun, hstep, h2], ScanEnds_congr h3⟩
        · rw [if_neg hc]
          refine ⟨1, finishScan (consumeByte b s), by omega, by omega, by simp [engineRun, engineStep, hp, scanStep, hlt', hb, hov', hc], ?_⟩
          refine ⟨fun hm => ?_, fun hm => ?_⟩
          · have : finishScan (consumeByte b s) = complete (latched (consumeByte b s)) .noError 0 (latchValue (consumeByte b s).acc.toNat (consumeByte b s).cnt.toNat (consumeByte b s)) := by unfold finishScan; simp only [consumeByte_mode, hm]
            rw [this, f4, f2]; simp only [SameButScan]; rfl
          · have : finishScan (consumeByte b s) = { consumeByte b s with phase := .check } := by unfold finishScan; simp only [consumeByte_mode, hm]
            rw [this]
            refine ⟨by simp only [SameButScan]; rfl, hm, f4, f2⟩

/-- A whole scan gives what the function gives (R78, R103). -/
theorem scan_from_start (m off) (s : State) (h : off ≤ 65535) :
  match decodeVarint s off with
    | .error f => ∃ k, k ≤ s.len.toNat - off + 1 ∧ engineRun k (startScan m off s) = .fault f
    | .ok r => ∃ k u, 1 ≤ k ∧ k ≤ s.len.toNat - off + 1 ∧ engineRun k (startScan m off s) = .next u ∧ ScanEnds (startScan m off s) r u := by
  have e : (BitVec.ofNat 17 off).toNat = off := by simp; omega
  have := scan_run _ (startScan m off s) off rfl rfl (startScan_regs h)
  rw [← decodeVarint_start m off s h] at this
  simpa only [startScan_len, startScan_ptr, e] using this

end Sys2Proof.Machine
end

