-- ==== Sys2Proof/Laws/Slice.lean ====
section
/-! SUPPORT. The slices: where their bytes come from, and what `SliceAddress` can answer (R82, R85). -/

namespace Sys2Proof.Machine

/-- The value of two bit vectors joined. -/
theorem toNat_append_mul {n m : Nat} (x : BitVec n) (y : BitVec m) : (x ++ y).toNat = x.toNat * 2 ^ m + y.toNat := by
  rw [BitVec.toNat_append, ← Nat.shiftLeft_add_eq_or_of_lt y.isLt, Nat.shiftLeft_eq]

/-- The lanes of a word of four bytes (R49). -/
theorem laneByte_wordOfBytes (b0 b1 b2 b3 : Byte) : laneByte (wordOfBytes b0 b1 b2 b3) 0 = b0 ∧
    laneByte (wordOfBytes b0 b1 b2 b3) 1 = b1 ∧ laneByte (wordOfBytes b0 b1 b2 b3) 2 = b2 ∧
    laneByte (wordOfBytes b0 b1 b2 b3) 3 = b3 := by
  have e : (wordOfBytes b0 b1 b2 b3).toNat = ((b3.toNat * 2^8 + b2.toNat)*2^8 + b1.toNat)*2^8 + b0.toNat := by
    unfold wordOfBytes; rw [toNat_append_mul, toNat_append_mul, toNat_append_mul]
  have := b0.isLt
  have := b1.isLt
  have := b2.isLt
  have := b3.isLt
  refine ⟨?_, ?_, ?_, ?_⟩ <;> apply BitVec.eq_of_toNat_eq <;> simp only [laneByte, BitVec.extractLsb'_toNat, e, Nat.shiftRight_eq_div_pow] <;> omega

/-- The lanes of a word cut from a byte list (R49). -/
theorem laneByte_wordAt (bs : List Byte) (i j : Nat) (h : j < 4) : laneByte (wordAt bs i) j = bs.getD (i + j) 0 := by
  obtain ⟨h0, h1, h2, h3⟩ := laneByte_wordOfBytes (bs.getD i 0) (bs.getD (i + 1) 0) (bs.getD (i + 2) 0) (bs.getD (i + 3) 0)
  have : j = 0 ∨ j = 1 ∨ j = 2 ∨ j = 3 := by omega
  rcases this with rfl | rfl | rfl | rfl
  · exact h0
  · exact h1
  · exact h2
  · exact h3

/-- A word is its four lanes (R49). -/
theorem wordOfBytes_lanes (d : Word) : wordOfBytes (laneByte d 0) (laneByte d 1) (laneByte d 2)
    (laneByte d 3) = d := by
  apply BitVec.eq_of_toNat_eq
  have := d.isLt
  have e : (wordOfBytes (laneByte d 0) (laneByte d 1) (laneByte d 2) (laneByte d 3)).toNat = (((laneByte d 3).toNat * 2^8 + (laneByte d 2).toNat)*2^8 + (laneByte d 1).toNat)*2^8 + (laneByte d 0).toNat := by
    unfold wordOfBytes; rw [toNat_append_mul, toNat_append_mul, toNat_append_mul]
  rw [e]
  simp [laneByte, BitVec.extractLsb'_toNat, Nat.shiftRight_eq_div_pow]; omega

/-- Two words with equal lanes are equal (R49). -/
theorem lane_ext {c d : Word} (h : ∀ j, j < 4 → c.extractLsb' (8*j) 8 = d.extractLsb' (8*j) 8) : c = d := by
  apply BitVec.eq_of_getLsbD_eq
  intro i hi
  have := congrArg (fun b : BitVec 8 => b.getLsbD (i % 8)) (h (i / 8) (by omega))
  simp only [BitVec.getLsbD_extractLsb'] at this
  have h1 : 8 * (i / 8) + i % 8 = i := by omega
  have h2 : i % 8 < 8 := by omega
  simpa [h1, h2] using this

/-- Key byte `j` stands where R31 and R32 place it. -/
theorem keyByteBits_keyWords (bs : List Byte) (j : Nat) (h : j < 32)
    : keyByteBits (keyWords bs) j h = bs.getD j 0 := by
  unfold keyByteBits keyWords
  rw [Vector.getElem_ofFn]
  have := laneByte_wordAt bs (4 * (j / 4)) (j % 4) (by omega)
  rw [show 4 * (j / 4) + j % 4 = j by omega] at this
  exact this

/-- The slices hold the buffer's bytes (R82). -/
theorem cut_facts {s : State} {v p : Nat} {bs : List Byte} (h : readBytes s p 68 = .ok bs) :
   (cutSlices v p bs).spend.length = 32 ∧ (cutSlices v p bs).view.length = 32 ∧ (cutSlices v p bs).chk.length = 4 ∧
   (∀ j, j < 32 → s.buf.read (p + j) = (cutSlices v p bs).spend[j]?) ∧
   (∀ j, j < 32 → s.buf.read (p + 32 + j) = (cutSlices v p bs).view[j]?) ∧
   (∀ j, j < 4 → s.buf.read (p + 64 + j) = (cutSlices v p bs).chk[j]?) := by
  obtain ⟨hl, hr⟩ := readBytes_eq_ok.1 h
  have hr' : ∀ j (h : j < bs.length), s.buf.read (p + j) = some bs[j] := fun j h => (readByte_eq_ok.1 (hr j h)).2
  refine ⟨by simp [cutSlices, Config.keyBytes, hl], by simp [cutSlices, Config.keyBytes, hl], by simp [cutSlices, Config.keyBytes, Config.chkBytes, hl], ?_, ?_, ?_⟩
  · intro j hj
    rw [hr' j (by omega)]; simp [cutSlices, Config.keyBytes, hj, hl]
  · intro j hj
    rw [Nat.add_assoc, hr' (32 + j) (by omega)]; simp [cutSlices, Config.keyBytes, hj]
  · intro j hj
    rw [Nat.add_assoc, hr' (64 + j) (by omega)]; simp [cutSlices, Config.keyBytes, Config.chkBytes, hj]

/-- On a written input that is long enough the 68 bytes exist (R88, R119). -/
theorem sliceBytes_exist {s : State} (hN : s.len.toNat ≤ s.params.N)
    (hw : InputWritten s) {p : Nat} (h : p + 68 ≤ s.len.toNat) : ∃ bs, readBytes s p 68 = .ok bs :=
  readBytes_exists fun j hj => by
    obtain ⟨b, hb⟩ := Option.isSome_iff_exists.1 (hw (p + j) (by omega))
    exact ⟨b, readByte_eq_ok.2 ⟨by omega, hb⟩⟩

/-- What a successful `SliceAddress` means (R82). -/
theorem sliceAddress_ok {s : State} {x : Slices} (h : sliceAddress s = .ok (.ok x))
    : decodeVarint s 0 = .ok (.ok x.pfx x.p) ∧ x.p + 68 ≤ s.len.toNat ∧ ∃ bs, readBytes s x.p 68 = .ok bs ∧
    x = cutSlices x.pfx x.p bs := by
  unfold sliceAddress at h
  split at h
  · cases h
  · cases h
  · next v p hd =>
    have hq : requiredLength p = p + 68 := rfl
    rw [hq] at h
    split at h
    · cases h
    · next hl =>
      split at h
      · cases h
      · next bs hbs => cases h; exact ⟨hd, by simp [cutSlices]; omega, bs, hbs, rfl⟩

/-- `SliceAddress` depends on `BUF`, `LEN`, W and N alone (R82). -/
theorem sliceAddress_congr {s t : State} (hp : s.params = t.params) (hl : s.len = t.len) (hb : s.buf = t.buf)
    : sliceAddress s = sliceAddress t := by
  unfold sliceAddress
  rw [decodeVarint_congr hp hl hb, hl]
  have e : ∀ p, readBytes s p 68 = readBytes t p 68 := fun p => readBytes_congr hp (fun j _ => by rw [hb])
  simp only [e]

/-- The difference mask written out (R91). -/
def dmask (p0 p1 p2 p3 : Bool) : Nat := (if p0 then 1 else 0) ||| (if p1 then 2 else 0) ||| (if p2 then 4 else 0) ||| (if p3 then 8 else 0)

/-- The difference mask has four bits. -/
theorem dmask_lt (a b e f : Bool) : dmask a b e f < 16 := by revert a b e f; decide

/-- The loop of R91 gives the mask. -/
theorem differenceMask_eq (c d : Word) : differenceMask c d = dmask (laneByte c 0 ≠ laneByte d 0)
    (laneByte c 1 ≠ laneByte d 1) (laneByte c 2 ≠ laneByte d 2) (laneByte c 3 ≠ laneByte d 3) := by
  unfold differenceMask
  by_cases h0 : laneByte c 0 = laneByte d 0 <;> by_cases h1 : laneByte c 1 = laneByte d 1 <;>
  by_cases h2 : laneByte c 2 = laneByte d 2 <;> by_cases h3 : laneByte c 3 = laneByte d 3 <;>
  simp [Config.chkBytes, List.range, List.range.loop, h0, h1, h2, h3, dmask]

/-- Bit `j` of the mask says that byte `j` differs (R91). -/
theorem differenceMask_testBit (c d : Word) (j : Nat) : (differenceMask c d).testBit j = true ↔ j < 4 ∧
    laneByte c j ≠ laneByte d j := by
  rw [differenceMask_eq]
  by_cases hj : j < 4
  · have : j = 0 ∨ j = 1 ∨ j = 2 ∨ j = 3 := by omega
    rcases this with rfl | rfl | rfl | rfl <;>
    by_cases h0 : laneByte c 0 = laneByte d 0 <;> by_cases h1 : laneByte c 1 = laneByte d 1 <;>
    by_cases h2 : laneByte c 2 = laneByte d 2 <;> by_cases h3 : laneByte c 3 = laneByte d 3 <;>
    simp [h0, h1, h2, h3, dmask] <;> decide
  · simp only [hj, false_and, iff_false, Bool.not_eq_true]
    apply Nat.testBit_lt_two_pow
    have : dmask (decide (laneByte c 0 ≠ laneByte d 0)) (decide (laneByte c 1 ≠ laneByte d 1)) (decide (laneByte c 2 ≠ laneByte d 2)) (decide (laneByte c 3 ≠ laneByte d 3)) < 2 ^ 4 := dmask_lt _ _ _ _
    exact lt_of_lt_of_le this (Nat.pow_le_pow_right (by omega) (by omega))

/-- The mask is 0 to 15 (R91). -/
theorem differenceMask_lt (c d : Word) : differenceMask c d < 16 := by
  rw [differenceMask_eq]
  exact dmask_lt _ _ _ _

/-- The mask is 0 exactly for equal words (R91). -/
theorem differenceMask_zero {c d : Word} : differenceMask c d = 0 ↔ c = d := by
  constructor
  · intro h
    apply lane_ext
    intro j hj
    by_contra hne
    have := (differenceMask_testBit c d j).2 ⟨hj, hne⟩
    simp [h] at this
  · rintro rfl
    rw [differenceMask_eq]; simp [dmask]

end Sys2Proof.Machine
end

