-- ==== Sys2Proof/Laws/Bus.lean ====
section
/-! SUPPORT. The register map and its transactions (R43 to R52), the engine's frame, runs. -/

namespace Sys2Proof.Machine

/-- `CTRL` (R43). -/
theorem target_ctrl (n : Nat) : target n 8 = some .ctrl := rfl

/-- `CMD` (R43). -/
theorem target_cmd (n : Nat) : target n 0x10 = some .cmd := rfl

/-- `LEN` (R43). -/
theorem target_len (n : Nat) : target n 0x14 = some .len := rfl

/-- `DIGEST` (R43). -/
theorem target_digest (n : Nat) : target n 0x30 = some .digest := rfl

/-- `SPEND0..7` (R43). -/
theorem target_spend (n : Nat) (i : Fin 8) : target n (0x40 + 4 * i.val) = some (.spend i) := by
  have := i.isLt
  unfold target regAt
  rw [if_pos (by omega), if_neg (by omega), if_pos (by omega)]
  congr 2
  ext
  simp [Fin.ofNat]

/-- `VIEW0..7` (R43). -/
theorem target_view (n : Nat) (i : Fin 8) : target n (0x60 + 4 * i.val) = some (.view i) := by
  have := i.isLt
  unfold target regAt
  rw [if_pos (by omega), if_neg (by omega), if_neg (by omega), if_pos (by omega)]
  congr 2
  ext
  simp [Fin.ofNat]

/-- The buffer window (R43). -/
theorem target_window (p : Params) {k : Nat} (h : 4 * k < p.N) : target p.N (0x1000 + 4 * k) = some (.bufWord k) := by
  unfold target regAt
  rw [if_pos (by omega), if_neg (by omega), if_neg (by omega), if_neg (by omega), if_pos (by simp [windowBase]; omega)]
  simp [windowBase]

/-- The offsets that are no register (R47). -/
theorem target_none_iff (n a : Nat) : target n a = none ↔ a % 4 ≠ 0 ∨ (0x034 ≤ a ∧ a < 0x040) ∨ (0x080 ≤ a ∧
    a < 0x1000) ∨ 0x1000 + n ≤ a := by
  unfold target
  by_cases h4 : a % 4 = 0
  · rw [if_pos h4]
    unfold regAt windowBase
    by_cases h1 : a < 0x40
    · rw [if_pos h1]
      have : a ∈ [0,4,8,12,16,20,24,28,32,36,40,44,48,52,56,60] := by
        obtain ⟨k, rfl⟩ : ∃ k, a = 4 * k := ⟨a/4, by omega⟩
        have : k < 16 := by omega
        interval_cases k <;> simp
      simp only [List.mem_cons, List.not_mem_nil, or_false] at this
      rcases this with rfl | rfl | rfl | rfl | rfl | rfl | rfl | rfl | rfl | rfl | rfl | rfl | rfl | rfl | rfl | rfl <;>
        simp [regTable, List.lookup] <;> omega
    · rw [if_neg h1]
      split
      · simp; omega
      · split
        · simp; omega
        · split
          · simp; omega
          · simp; omega
  · simp [h4]

/-- An offset of the buffer window gives its word (R50). -/
theorem target_bufWord {n a k : Nat} (h : target n a = some (.bufWord k)) : a = 0x1000 + 4 * k ∧
    0x1000 + 4 * k < 0x1000 + n := by
  unfold target at h
  split at h
  · next h4 =>
    unfold regAt at h
    split at h
    · next h1 =>
      exfalso
      obtain ⟨k, rfl⟩ : ∃ k, a = 4 * k := ⟨a/4, by omega⟩
      have : k < 16 := by omega
      interval_cases k <;> simp [regTable, List.lookup] at h
    · split at h
      · cases h
      · split at h
        · cases h
        · split at h
          · next hw => cases h; simp [windowBase] at *; omega
          · cases h
  · cases h

/-- The read-only registers below 0x040 (R47). -/
theorem lookup_ro (a : Nat) (r : Reg) (h4 : a % 4 = 0) (h1 : a < 0x40) (h : regTable.lookup a = some r) :
   (r.readOnly = true ↔ a ∈ [0x000, 0x004, 0x00C, 0x018, 0x01C, 0x020, 0x024, 0x028, 0x02C]) ∧ (r = .len ↔ a = 0x14) := by
  obtain ⟨k, rfl⟩ : ∃ k, a = 4 * k := ⟨a/4, by omega⟩
  have : k < 16 := by omega
  interval_cases k <;> simp [regTable, List.lookup] at h <;> subst h <;> simp [Reg.readOnly]

/-- The read-only registers and `LEN` by offset (R47). -/
theorem target_ro {n a : Nat} {r : Reg} (h : target n a = some r) :
   (r.readOnly = true ↔ a ∈ [0x000, 0x004, 0x00C, 0x018, 0x01C, 0x020, 0x024, 0x028, 0x02C] ∨ (0x040 ≤ a ∧ a < 0x080)) ∧ (r = .len ↔ a = 0x14) := by
  unfold target at h
  split at h
  · next h4 =>
    unfold regAt at h
    split at h
    · next h1 =>
      obtain ⟨e1, e2⟩ := lookup_ro a r h4 h1 h
      refine ⟨?_, e2⟩
      rw [e1]; constructor
      · exact .inl
      · rintro (h | h)
        · exact h
        · omega
    · next h1 =>
      have hl : ¬ a ∈ [0x000, 0x004, 0x00C, 0x018, 0x01C, 0x020, 0x024, 0x028, 0x02C] := by simp; omega
      split at h
      · cases h; simp [Reg.readOnly, hl]; omega
      · split at h
        · cases h; simp [Reg.readOnly, hl]; omega
        · split at h
          · cases h; simp [Reg.readOnly, hl]; omega
          · cases h
  · cases h

/-- A 17-bit register on the bus (R15). -/
theorem indexWord_eq (x : Index) : indexWord x = x.setWidth 32 := by
  apply BitVec.eq_of_toNat_eq
  rw [indexWord, toNat_append_mul]; have := x.isLt; simp; omega

/-- The value of `PARAM` (R21). -/
theorem paramWord_toNat (p : Params) : (paramWord p).toNat = p.W + 256 * p.N := by
  have hW := p.wPred.isLt
  have hN := p.nWordsPred.isLt
  have e : (paramWord p).toNat = ((0 * 2^17 + (BitVec.ofNat 17 p.N).toNat) * 2^1 + 0) * 2^7 + (BitVec.ofNat 7 p.W).toNat := by
    unfold paramWord
    rw [toNat_append_mul, toNat_append_mul, toNat_append_mul]; rfl
  rw [e]
  simp [Params.W, Params.N]; omega

/-- The bits of the `STATUS` layout (R23). -/
theorem status_bits (e : BitVec 4) (m sv vv dr dn bs : Bool) :
  let w : BitVec 32 := (0 : BitVec 20) ++ e ++ (0 : BitVec 2) ++ BitVec.ofBool m ++ BitVec.ofBool sv ++
    BitVec.ofBool vv ++ BitVec.ofBool dr ++ BitVec.ofBool dn ++ BitVec.ofBool bs
  w.getLsbD 0 = bs ∧ w.getLsbD 1 = dn ∧ w.getLsbD 2 = dr ∧ w.getLsbD 3 = vv ∧ w.getLsbD 4 = sv ∧ w.getLsbD 5 = m ∧
  (∀ j, j < 32 → j = 6 ∨ j = 7 ∨ 12 ≤ j → w.getLsbD j = false) ∧ w.extractLsb' 8 4 = e := by
  revert e m sv vv dr dn bs
  decide

/-- A read of a written buffer word (R50). -/
theorem busRead_window_written {s : State} {k : Nat} {b0 b1 b2 b3 : Byte} (hk : 4 * k < s.params.N)
  (h0 : s.buf.read (4*k) = some b0) (h1 : s.buf.read (4*k+1) = some b1) (h2 : s.buf.read (4*k+2) = some b2) (h3 : s.buf.read (4*k+3) = some b3) :
  busRead (0x1000 + 4 * k) s = (.read .ok (wordOfBytes b0 b1 b2 b3), s) := by
  simp [busRead, target_window s.params hk, readReg, afterRead, hostWord, hostByte, h0, h1, h2, h3, afterHostWord, wordHasUnwritten]

/-- An idle block is not busy (R34). -/
theorem not_busy {s : State} (h : s.phase = .idle) : s.busy = false := busy_eq_false.2 h

/-- A block that is not idle is busy (R34). -/
theorem is_busy {s : State} (h : s.phase ≠ .idle) : s.busy = true := busy_eq_true.2 h

/-- A read does not look at the host's script. -/
theorem busRead_script (a : Nat) (s : State) (r : List HostOp) :
    busRead a { s with script := r } = ((busRead a s).1, { (busRead a s).2 with script := r }) := by
  unfold busRead
  dsimp only
  cases target s.params.N a with
  | none => rfl
  | some x =>
    cases x with
    | bufWord k =>
      dsimp only [readReg, afterRead, afterHostWord]
      have : wordHasUnwritten { s with script := r } (4*k) = wordHasUnwritten s (4*k) := rfl
      rw [this]
      split <;> rfl
    | _ => rfl

/-- A write does not look at the host's script. -/
theorem busWrite_script (a : Nat) (d : Word) (s : State) (r : List HostOp) :
    busWrite a d { s with script := r } = ((busWrite a d s).1, { (busWrite a d s).2 with script := r }) := by
  unfold busWrite
  dsimp only
  cases target s.params.N a with
  | none => rfl
  | some x =>
    dsimp only
    have e1 : writeRefused x d { s with script := r } = writeRefused x d s := rfl
    have e2 : State.busy { s with script := r } = State.busy s := rfl
    rw [e1, e2]
    split
    · rfl
    · split
      · rfl
      · cases x <;> rfl

/-- While a command runs a write changes at most `IE` and `DROP` (R94). -/
theorem busWrite_busy {s : State} (h : s.busy = true) (a d) : (busWrite a d s).2 = { s with ie := (busWrite a d s).2.ie, drop := (busWrite a d s).2.drop } := by
  rcases busWrite_cases a d s with h1 | ⟨_, h1⟩ | ⟨r, _, h2, h3, h1⟩ <;> rw [h1]
  · rfl
  · have h3 := h3 h
    cases r <;> simp [Reg.droppable] at h3 <;> simp [writeRefused, Reg.readOnly] at h2
    rfl

/-- While a command runs the host changes only `IE`, `DROP` and its own side (R94). -/
theorem hostStep_busy {s : State} (h : s.busy = true) : SameButHostSide s (hostStep s) := by
  unfold SameButHostSide
  rcases hostStep_cases s with ⟨_, h1⟩ | ⟨a, rest, _, h1⟩ | ⟨a, d, rest, _, h1⟩ | ⟨rest, _, _, h1⟩ | ⟨rest, _, h2, h1⟩
  · rw [h1]
  · rw [h1]; unfold note; rw [busRead_state]
  · rw [h1]; unfold note; rw [busWrite_busy (by exact h)]
  · rw [h1]; unfold note; rw [busRead_state]
  · simp [h] at h2

/-- What a DecodeStep never changes (R97). -/
theorem exec_frame {i : Instr} {s t : State} (h : exec i s = .next t) :
    t.params = s.params ∧ t.buf = s.buf ∧ t.ie = s.ie ∧ t.len = s.len ∧ t.digest = s.digest ∧ t.lcmd = s.lcmd ∧
    t.script = s.script ∧ t.turns = s.turns ∧ t.responses = s.responses ∧ t.draws = s.draws := by
  cases i with
  | chkcmp =>
    simp only [exec] at h
    rcases execChkcmp_cases s with ⟨h1, h2⟩ | ⟨h1, _, h2⟩ | ⟨h1, _, h2⟩ <;> (rw [h2] at h; cases h; simp)
  | _ => cases h; simp

/-- What the engine never changes (R17, R58, R98). -/
theorem engineStep_frame {s t : State} (h : engineStep s = .next t) :
    t.params = s.params ∧ t.buf = s.buf ∧ t.ie = s.ie ∧ t.len = s.len ∧ t.digest = s.digest ∧ t.lcmd = s.lcmd ∧
    t.script = s.script ∧ t.turns = s.turns ∧ t.responses = s.responses ∧ t.draws = s.draws := by
  rcases engineStep_next h with ⟨_, rfl⟩ | ⟨hp, i, hi, he⟩ | ⟨_, _, rfl⟩ | ⟨hp, hs⟩ | ⟨hp, hs⟩
  · simp
  · exact exec_frame he
  · simp
  · rcases scanStep_next hs with ⟨_, rfl⟩ | ⟨b, _, _, ⟨_, rfl⟩ | ⟨_, _, rfl⟩ | ⟨_, _, rfl⟩⟩
    · simp
    · simp
    · simp
    · rcases finishScan_cases (consumeByte b s) with ⟨_, h⟩ | ⟨_, h⟩ <;> (rw [h]; simp)
  · rcases checkStep_next hs with ⟨_, rfl⟩ | ⟨bs, _, _, rfl⟩ <;> simp

/-- Runs of the engine join. -/
theorem engineRun_add {a b : Nat} {s u : State} (h : engineRun a s = .next u)
    : engineRun (a + b) s = engineRun b u := by
  induction a generalizing s with
  | zero => simp [engineRun] at h; subst h; simp
  | succ n ih =>
    rw [Nat.add_right_comm, engineRun]
    rw [engineRun] at h
    cases he : engineStep s with
    | next t => simp only [he] at h ⊢; exact ih h
    | fault f => simp [he] at h
    | refused r => simp [he] at h

/-- The fields a host move leaves while a command runs (R94). -/
theorem host_fields {s t : State} (h : SameButHostSide s t) : t.params = s.params ∧ t.buf = s.buf ∧ t.done = s.done ∧
    t.vvalid = s.vvalid ∧ t.svalid = s.svalid ∧ t.cmatch = s.cmatch ∧ t.err = s.err ∧ t.len = s.len ∧
    t.value = s.value ∧ t.consumed = s.consumed ∧ t.errinfo = s.errinfo ∧ t.bodyLen = s.bodyLen ∧ t.chk = s.chk ∧ t.digest = s.digest ∧ t.spend = s.spend ∧ t.view = s.view ∧ t.lcmd = s.lcmd ∧ t.phase = s.phase := by
  unfold SameButHostSide at h
  refine ⟨?_, ?_, ?_, ?_, ?_, ?_, ?_, ?_, ?_, ?_, ?_, ?_, ?_, ?_, ?_, ?_, ?_, ?_⟩ <;> (rw [h])

/-- The fields that are no scan register. -/
theorem scan_fields {s t : State} (h : SameButScan s t) : t.params = s.params ∧ t.buf = s.buf ∧ t.done = s.done ∧
    t.vvalid = s.vvalid ∧ t.svalid = s.svalid ∧ t.cmatch = s.cmatch ∧ t.err = s.err ∧ t.len = s.len ∧
    t.value = s.value ∧ t.consumed = s.consumed ∧ t.errinfo = s.errinfo ∧ t.bodyLen = s.bodyLen ∧ t.chk = s.chk ∧ t.digest = s.digest ∧ t.spend = s.spend ∧ t.view = s.view ∧ t.lcmd = s.lcmd ∧ t.phase = s.phase := by
  unfold SameButScan at h
  refine ⟨?_, ?_, ?_, ?_, ?_, ?_, ?_, ?_, ?_, ?_, ?_, ?_, ?_, ?_, ?_, ?_, ?_, ?_⟩ <;> (rw [h])

/-- A first engine step. -/
theorem run_one {s t : State} (h : engineStep s = .next t) (k)
    : engineRun (k+1) s = engineRun k t := by simp [engineRun, h]

/-- An idle engine stays as it is. -/
theorem idle_run {s : State} (h : s.phase = .idle) (k) : engineRun k s = .next s := by
  induction k with
  | zero => rfl
  | succ n ih =>
    have e : engineStep s = .next s := by simp only [engineStep, h]
    rw [run_one e]; exact ih

/-- A first step of a run of any machine. -/
theorem gen_run_succ (M : Host.Core) {s t : M.State} (h : M.step s = .next t) (k : Nat)
    : M.run (k+1) s = M.run k t := by
  simp only [Host.Core.run, h]

/-- Runs of any machine join. -/
theorem gen_run_add (M : Host.Core) {a b : Nat} {s u : M.State} (h : M.run a s = .next u)
    : M.run (a + b) s = M.run b u := by
  induction a generalizing s with
  | zero => simp only [Host.Core.run, Host.Outcome.next.injEq] at h; simp [h]
  | succ n ih =>
    rw [Nat.add_right_comm]
    simp only [Host.Core.run] at h ⊢
    cases he : M.step s with
    | next t => simp only [he] at h ⊢; exact ih h
    | fault f => simp [he] at h
    | refused r => simp [he] at h

/-- A first step of a run. -/
theorem core_run_succ {s t : State} (h : step s = .next t) (k)
    : core.run (k+1) s = core.run k t := gen_run_succ core h k

/-- Runs join. -/
theorem core_run_add {a b : Nat} {s u : State} (h : core.run a s = .next u)
    : core.run (a + b) s = core.run b u := gen_run_add core h

end Sys2Proof.Machine
end

