-- ==== Sys2Proof/Laws/Decode.lean ====
section
/-! SUPPORT. The fields of a word of format `C`, and what `decode` can answer (R59, R65). -/

namespace Sys2Proof

/-- The bits of a word of format `C` (R59). -/
theorem getLsbD_formatC (off : BitVec 16) (op : BitVec 4) (i : Nat) :
    (formatC off op).getLsbD i =
      if i < 4 then op.getLsbD i else if i < 16 then false else off.getLsbD (i - 16) := by
  have h1 := BitVec.getLsbD_append (x := off ++ (0 : BitVec 12)) (y := op) (i := i)
  have h2 := BitVec.getLsbD_append (x := off) (y := (0 : BitVec 12)) (i := i - 4)
  refine h1.trans ?_
  rw [h2]
  by_cases h3 : i < 4
  · simp [h3]
  · by_cases h4 : i < 16
    · have h5 : i - 4 < 12 := by omega
      simp [h3, h4, h5]
    · have h5 : ¬ i - 4 < 12 := by omega
      have h6 : i - 4 - 12 = i - 16 := by omega
      simp [h3, h4, h5, h6]

/-- `OP` of a format `C` word. -/
@[simp] theorem opField_formatC (off : BitVec 16) (op : BitVec 4) : opField (formatC off op) = op := by
  apply BitVec.eq_of_getLsbD_eq
  intro i hi
  simp only [opField, BitVec.getLsbD_extractLsb', getLsbD_formatC]
  simp [hi]

/-- `RSV` of a format `C` word. -/
@[simp] theorem rsvField_formatC (off : BitVec 16) (op : BitVec 4) : rsvField (formatC off op) = 0 := by
  apply BitVec.eq_of_getLsbD_eq
  intro i hi
  simp only [rsvField, BitVec.getLsbD_extractLsb', getLsbD_formatC]
  rw [if_neg (by omega), if_pos (by omega)]
  simp

/-- `OFFSET` of a format `C` word. -/
@[simp] theorem offsetField_formatC (off : BitVec 16) (op : BitVec 4) : offsetField (formatC off op) = off := by
  apply BitVec.eq_of_getLsbD_eq
  intro i hi
  simp only [offsetField, BitVec.getLsbD_extractLsb', getLsbD_formatC]
  rw [if_neg (by omega), if_neg (by omega), Nat.add_sub_cancel_left]
  simp [hi]

/-- A word is its three fields (R59). -/
theorem eq_formatC_of_rsv {c : Word} (h : rsvField c = 0) : c = formatC (offsetField c) (opField c) := by
  apply BitVec.eq_of_getLsbD_eq
  intro i hi
  have hr := congrArg (fun r : BitVec 12 => r.getLsbD (i - 4)) h
  simp only [rsvField, BitVec.getLsbD_extractLsb'] at hr
  rw [getLsbD_formatC]
  simp only [opField, offsetField, BitVec.getLsbD_extractLsb']
  by_cases h1 : i < 4
  · simp [h1]
  · by_cases h2 : i < 16
    · have h3 : i - 4 < 12 := by omega
      have h4 : 4 + (i - 4) = i := by omega
      simp only [h3, decide_true, Bool.true_and, h4] at hr
      simp [h1, h2, hr]
    · have h4 : i - 16 < 16 := by omega
      have h5 : 16 + (i - 16) = i := by omega
      simp [h1, h2, h4, h5]

/-- Two format `C` words are equal only when their fields are. -/
theorem formatC_inj {x y : BitVec 16} {p q : BitVec 4} (h : formatC x p = formatC y q) : x = y ∧ p = q := by
  constructor
  · have := congrArg offsetField h
    simpa using this
  · have := congrArg opField h
    simpa using this

/-- What `decode` answers on a legal word: the command and its fields. -/
theorem decode_eq_ok {c : Word} {i : Instr} (h : decode c = .ok i) :
    rsvField c = 0 ∧
      ((i = .nop ∧ opField c = 0x0 ∧ offsetField c = 0) ∨
        (i = .varint (offsetField c).toNat ∧ opField c = 0x1) ∨
        (i = .slice ∧ opField c = 0x2 ∧ offsetField c = 0) ∨
        (i = .chkcmp ∧ opField c = 0x3 ∧ offsetField c = 0) ∨
        (i = .clear ∧ opField c = 0x4 ∧ offsetField c = 0)) := by
  unfold decode withoutOffset at h
  split at h
  · cases h
  · next hr =>
    refine ⟨by simpa using hr, ?_⟩
    repeat' split at h
    all_goals first
      | cases h; done
      | (cases h; simp_all)

end Sys2Proof
end

