-- ==== Sys2Proof/Laws/PerInstr.lean ====
section
/-! SUPPORT. The statements made of each command, one lemma a constructor: the words of well-formed commands are legal (R63). -/

namespace Sys2Proof.Laws.EncodesLegally

/-- The word of a well-formed command is legal, and its fields are those of format `C` (R59, R63). -/
def Statement (i : Instr) : Prop :=
  i.wf = true → legal (encode i) = true ∧ rsvField (encode i) = 0 ∧
    (match i with
      | .nop => opField (encode i) = 0x0 ∧ offsetField (encode i) = 0
      | .varint off => opField (encode i) = 0x1 ∧ (offsetField (encode i)).toNat = off
      | .slice => opField (encode i) = 0x2 ∧ offsetField (encode i) = 0
      | .chkcmp => opField (encode i) = 0x3 ∧ offsetField (encode i) = 0
      | .clear => opField (encode i) = 0x4 ∧ offsetField (encode i) = 0)

theorem nop : Statement .nop := by intro _; decide

theorem varint (off : Nat) : Statement (.varint off) := by
  intro h
  have h : off ≤ 65535 := by simpa [Instr.wf] using h
  simp [legal, encode]
  omega

theorem slice : Statement .slice := by intro _; decide

theorem chkcmp : Statement .chkcmp := by intro _; decide

theorem clear : Statement .clear := by intro _; decide

end Sys2Proof.Laws.EncodesLegally
end

