-- ==== Sys2Proof/Tests/Slice0.lean ====
section
/-! SUPPORT. Tests: the checks of WellFormed, words written out from the encodings of 30_encoding.md, single steps with
results from 95_test_vectors.md, and for each statement a state that meets its hypotheses. -/

namespace Sys2Proof.Tests

set_option Elab.async false

open Sys2Proof Sys2Proof.Machine

/-- The buffer that holds the bytes from index 0. -/
def bufOf (bs : List Byte) : Memory := bs.zipIdx.map fun x => (x.2, x.1)

/-- Reset, with the bytes loaded and counted in `LEN`. -/
def loaded (bs : List Byte) : State := { State.reset with buf := bufOf bs, len := BitVec.ofNat 17 bs.length }

/-- The same with a command word accepted. -/
def ready (bs : List Byte) (c : Word) : State := accept c (loaded bs)

/-- In the middle of a scan: `n` bytes consumed from 0, `ACC` as given. -/
def scanned (bs : List Byte) (c : Word) (m : Mode) (n a : Nat) : State :=
  { ready bs c with
    phase := .scan
    mode := m
    ptr := BitVec.ofNat 17 n
    cnt := BitVec.ofNat 17 n
    shift := BitVec.ofNat 7 (min (7 * n) 64)
    acc := BitVec.ofNat 64 a }

/-- The state a step answers, `State.reset` where it stops. -/
def after (o : Host.Outcome State Fault Refusal) : State :=
  match o with
  | .next t => t
  | .fault _ => State.reset
  | .refused _ => State.reset

/-- The bytes of vector V7: 0xE5 0x8E 0x26. -/
def v7 : List Byte := [0xE5, 0x8E, 0x26]

/-- Vector S4: prefix 0x2A, keys of bytes 1 to 32 and 33 to 64, checksum A0 A1 A2 A3. -/
def s4 : List Byte := 0x2A :: (List.range 64).map (fun j => BitVec.ofNat 8 (j + 1)) ++ [0xA0, 0xA1, 0xA2, 0xA3]

/-- A block whose `SLICE` of S4 has completed. -/
def sliced : State := complete (some .slice) .noError 0
  (latchSlices (cutSlices 42 1 (s4.drop 1)) (loaded s4))

/-! ## WellFormed -/

theorem test_wf_offset : (Instr.varint 65535).wf = true ∧ (Instr.varint 65536).wf = false := by decide

/-! ## Words, bit by bit: OFFSET, RSV, OP (R59, R60) -/

theorem test_decode_nop : decode 0b0000000000000000_000000000000_0000 = .ok .nop := by decide
theorem test_decode_varint : decode 0b1000000000000001_000000000000_0001 = .ok (.varint 32769) := by decide
theorem test_decode_slice : decode 0b0000000000000000_000000000000_0010 = .ok .slice := by decide
theorem test_decode_chkcmp : decode 0b0000000000000000_000000000000_0011 = .ok .chkcmp := by decide
theorem test_decode_clear : decode 0b0000000000000000_000000000000_0100 = .ok .clear := by decide
/-- HK3 to HK9. -/
theorem test_decode_illegal :
    decode 0x00000005 = .error .reservedOp ∧ decode 0x0000000F = .error .reservedOp ∧
    decode 0x00000010 = .error .reservedBits ∧ decode 0x00010002 = .error .nonzeroOffset ∧
    decode 0x00010000 = .error .nonzeroOffset ∧ decode 0x00018001 = .error .reservedBits ∧
    decode 0xFFFFFFFF = .error .reservedBits := by decide
theorem test_table_word : decodeTableWord 32 0x00070001 = some (.varint 7) ∧ decodeTableWord 32 5 = none := by decide

/-! ## One step of each command -/

/-- HK1. -/
theorem test_nop_hk1 :
    statusWord (after (step ({ complete (some (.varint 0)) .malformedVarint 1 (loaded [0x80]) with
      vvalid := false }.withFetchWord 32 0))) = 0x00000002 := by decide

/-- V7's table, byte 1. -/
theorem test_varint_v7_byte1 :
    let t := after (step (scanned v7 1 .mv 1 101))
    t.ptr = 2 ∧ t.cnt = 2 ∧ t.shift = 14 ∧ t.acc = 1893 ∧ t.phase = .scan := by decide

/-- V19: the group 2 at bit 63 overflows, at index 9. -/
theorem test_varint_v19 :
    let t := after (step (scanned [0xFF, 0xFF, 0xFF, 0xFF, 0xFF, 0xFF, 0xFF, 0xFF, 0xFF, 0x02] 1 .mv 9 (2 ^ 63 - 1)))
    statusWord t = 0x00000202 ∧ t.errinfo = 9 ∧ t.value = 0 := by decide

/-- S4, the last step. -/
theorem test_slice_s4 :
    let t := after (step { scanned s4 2 .ms 1 42 with phase := .check })
    t.spend[0] = 0x04030201 ∧ t.spend[7] = 0x201F1E1D ∧ t.view[0] = 0x24232221 ∧ t.view[7] = 0x403F3E3D ∧
      t.chk = 0xA3A2A1A0 ∧ t.bodyLen = 65 ∧ t.value = 42 ∧ t.consumed = 1 ∧ statusWord t = 0x0000001A := by
  decide +kernel

/-- S2. -/
theorem test_slice_s2 :
    let t := after (step { scanned (s4.take 68) 2 .ms 1 42 with phase := .check })
    statusWord t = 0x00000302 ∧ t.errinfo = 69 := by decide +kernel

/-- CK1 and CK2. -/
theorem test_chkcmp_ck1_ck2 :
    let s := { State.reset with vvalid := true, svalid := true, chk := (0x44332211 : Word) }
    statusWord (after (exec .chkcmp { s with digest := 0x44332211 })) = 0x0000003A ∧
      statusWord (after (exec .chkcmp { s with digest := 0x44332210 })) = 0x0000041A ∧
      (after (exec .chkcmp { s with digest := 0x44332210 })).errinfo = 0x1 := by decide

/-- CK4a and CK6. -/
theorem test_chkcmp_ck4a_ck6 :
    (after (exec .chkcmp { State.reset with svalid := true, chk := 0x44332211, digest := 0x00112233 })).errinfo = 0xD ∧
      statusWord (after (exec .chkcmp State.reset)) = 0x00000602 := by decide

/-- HK2. -/
theorem test_clear_hk2 :
    let t := after (exec .clear { sliced with cmatch := true, drop := true, digest := 0x44332211, lcmd := 4 })
    statusWord t = 0x00000002 ∧ t.value = 0 ∧ t.consumed = 0 ∧ t.bodyLen = 0 ∧ t.chk = 0 ∧ t.spend[7] = 0 ∧
      t.view[0] = 0 ∧ t.len = 69 ∧ t.digest = 0x44332211 := by decide +kernel

/-- HK6. -/
theorem test_illegal_hk6 : (after (step (ready [] 0x00010002))).errinfo = 0x00010002 := by decide

/-- BU16: the word and its bytes. -/
theorem test_bus_bu16 :
    let t := (busWrite 0x1000 0x268EE5AA State.reset).2
    t.buf = [(0, 0xAA), (1, 0xE5), (2, 0x8E), (3, 0x26)] ∧ (busRead 0x1000 t).1 = .read .ok 0x268EE5AA := by decide

/-- BU2, BU5 to BU15. -/
theorem test_bus_map :
    (busRead 0x004 State.reset).1 = .read .ok 0x00010040 ∧ (busRead 0x002 State.reset).1 = .read .slverr 0 ∧
    (busWrite 0x003 5 State.reset).1 = .write .slverr ∧ (busRead 0x1100 State.reset).1 = .read .slverr 0 ∧
    (busWrite 0x014 257 State.reset).1 = .write .slverr ∧ (busWrite 0x014 256 State.reset).1 = .write .ok ∧
    (busRead 0x008 (busWrite 0x008 0xFFFFFFFF State.reset).2).1 = .read .ok 1 := by decide

/-! ## The memory's canonical form -/

theorem test_memory_reset : State.reset.buf.wf ∧ State.reset.buf.within State.reset.params.N := by decide

/-! ## States that meet the statements' hypotheses -/

theorem witness_DecodeEncodeRoundTrip :
    Instr.nop.wf = true ∧ (Instr.varint 0).wf = true ∧ (Instr.varint 65535).wf = true ∧ Instr.slice.wf = true ∧
    Instr.chkcmp.wf = true ∧ Instr.clear.wf = true := by decide

theorem witness_EncodeDecodeAgree :
    decode 0x00000001 = .ok (.varint 0) ∧ decode 0xFFFF0001 = .ok (.varint 65535) ∧ decode 0x00000004 = .ok .clear := by
  decide

theorem witness_StepRunsDecodedCommand :
    let s := ready v7 0x00000001
    s.phase = .decode ∧ decode s.lcmd = .ok (.varint 0) ∧ s.turns = [] ∧
      { s with turns := [.engine, .host] }.turns = .engine :: [.host] := by decide

/-- Every phase with the engine to move, and the host to move. -/
theorem witness_StepIsTheMoversMove :
    let s := scanned v7 1 .mv 1 101
    { s with turns := [.engine] }.turns = .engine :: [] ∧ { s with turns := [.host, .engine] }.turns = .host :: [.engine] ∧
      (s.turns = [] ∧ s.phase ≠ .idle) ∧ ((ready [] 5).turns = [] ∧ (ready [] 5).phase ≠ .idle) ∧
      (State.reset.turns = [] ∧ State.reset.phase = .idle) := by decide

theorem witness_HostMoveIsItsNextTransaction :
    { State.reset with script := [.read 0x00C] }.script = .read 0x00C :: [] ∧
      { State.reset with script := [.write 0x014 2, .wait] }.script = .write 0x014 2 :: [.wait] ∧
      { ready v7 1 with script := [.wait, .wait] }.script = .wait :: [.wait] ∧ State.reset.script = [] := by decide

theorem witness_FetchedWordRunsNext : decode 0x00000003 = .ok .chkcmp := by decide

theorem witness_EngineStepFollowsPhase :
    State.reset.phase = .idle ∧ (ready v7 2).phase = .decode ∧ decode (ready v7 2).lcmd = .ok .slice ∧
      (scanned v7 1 .mv 1 101).phase = .scan ∧ { scanned s4 2 .ms 1 42 with phase := .check }.phase = .check := by
  decide

theorem witness_IllegalWordCompletes :
    (ready [] 0x00000005).phase = .decode ∧ legal (ready [] 0x00000005).lcmd = false := by
  decide

theorem witness_ClearCompletes_command :
    ∃ t, step { ready v7 4 with drop := true } = .next t ∧ { ready v7 4 with drop := true }.drop = true ∧
      t.drop = false := ⟨_, rfl, rfl, rfl⟩

theorem witness_ClearCompletes_reset :
    ∃ t, step { State.reset with drop := true, turns := [.rst] } = .next t ∧ t.drop = false := ⟨_, rfl, rfl⟩

theorem witness_ChkcmpCompletes :
    State.reset.svalid = false ∧
    (let s := { State.reset with svalid := true, chk := (0x44332211 : Word), digest := (0x44332211 : Word) }
     s.svalid = true ∧ s.chk = s.digest) ∧
    (let s := { State.reset with svalid := true, chk := (0x44332211 : Word), digest := (0x45332211 : Word) }
     s.svalid = true ∧ s.chk ≠ s.digest) := by decide

theorem witness_OneMutatedByteGivesOneMaskBit :
    let s := { State.reset with svalid := true, chk := (0x44332211 : Word), digest := (0x45332211 : Word) }
    s.svalid = true ∧ 3 < 4 ∧ s.chk.extractLsb' (8 * 3) 8 ≠ s.digest.extractLsb' (8 * 3) 8 ∧
      ∀ k, k < 4 → k ≠ 3 → s.chk.extractLsb' (8 * k) 8 = s.digest.extractLsb' (8 * k) 8 := by decide

/-- V7; one written byte of an input of three (V8: the bytes after the terminating byte are not read); nothing written and
`off` beyond `LEN` (V13). -/
theorem witness_VarintRunsToItsEffect :
    (let s := ready v7 0x00000001
     s.lcmd = BitVec.ofNat 32 (0 * 65536 + 1) ∧ ∃ t, varintEffect 0 s = .ok t) ∧
    (let s := { ready [0x05] 0x00000001 with len := 3 }
     s.lcmd = BitVec.ofNat 32 (0 * 65536 + 1) ∧ (∃ t, varintEffect 0 s = .ok t) ∧ s.len.toNat ≤ s.params.N ∧
       ∀ i, ParseReads s 0 i → ∃ b, s.buf.read i = some b) ∧
    (let s := { ready [] 0x00040001 with len := 3 }
     s.lcmd = BitVec.ofNat 32 (4 * 65536 + 1) ∧ (∃ t, varintEffect 4 s = .ok t) ∧ s.len.toNat ≤ s.params.N ∧
       ∀ i, ParseReads s 4 i → ∃ b, s.buf.read i = some b) := by
  refine ⟨⟨by decide, _, rfl⟩, ⟨by decide, ⟨_, rfl⟩, by decide, ?_⟩, ⟨by decide, ⟨_, rfl⟩, by decide, ?_⟩⟩
  · intro i h
    by_cases h0 : i = 0
    · exact ⟨0x05, by subst h0; decide⟩
    · obtain ⟨b, h1, h2⟩ := h.2.2.1 0 (by omega) (by omega)
      have h3 : (some 0x05 : Option Byte) = some b := h1
      cases h3
      exact absurd h2 (by decide)
  · intro i h
    have h1 : 4 ≤ i := h.1
    have h2 : i < 3 := h.2.1
    omega

/-- S4, and one written byte of an input of three, which is too short to slice. -/
theorem witness_SliceRunsToItsEffect :
    ((ready s4 2).lcmd = 0x00000002 ∧ ∃ t, sliceEffect (ready s4 2) = .ok t) ∧
    (let s := { ready [0x05] 2 with len := 3 }
     s.lcmd = 0x00000002 ∧ (∃ t, sliceEffect s = .ok t) ∧ s.len.toNat ≤ s.params.N ∧
       ∀ i, SliceReads s i → ∃ b, s.buf.read i = some b) := by
  refine ⟨⟨rfl, ?_⟩, rfl, ⟨_, rfl⟩, by decide, ?_⟩
  · have h : sliceAddress (ready s4 2) = .ok (.ok (cutSlices 42 1 (s4.drop 1))) := by decide +kernel
    unfold sliceEffect
    rw [h]
    exact ⟨_, rfl⟩
  · rintro i (h | ⟨v, p, _, h, _⟩)
    · by_cases h0 : i = 0
      · exact ⟨0x05, by subst h0; decide⟩
      · obtain ⟨b, h1, h2⟩ := h.2.2.1 0 (by omega) (by omega)
        have h3 : (some 0x05 : Option Byte) = some b := h1
        cases h3
        exact absurd h2 (by decide)
    · have h1 : p + 68 ≤ 3 := h
      omega

theorem witness_EngineFaultsWithTheFunction :
    let s := { ready [] 0x00000001 with len := 1 }
    let z := { ready [] 0x00000002 with len := 1 }
    (s.lcmd = BitVec.ofNat 32 (0 * 65536 + 1) ∧ varintEffect 0 s = .error .unwrittenByte) ∧
      (z.lcmd = 0x00000002 ∧ sliceEffect z = .error .unwrittenByte) := ⟨⟨by decide, rfl⟩, rfl, rfl⟩

/-- An unwritten first byte, and a slice whose last byte is unwritten. -/
theorem witness_EngineFaultsWithTheFunction_reads :
    (let s := { ready [] 0x00000001 with len := 1 }
     s.len.toNat ≤ s.params.N ∧ ParseReads s 0 0 ∧ SliceReads s 0 ∧ s.buf.read 0 = none) ∧
    (let s := { ready (s4.take 68) 2 with len := 69 }
     s.len.toNat ≤ s.params.N ∧ SliceReads s 68 ∧ s.buf.read 68 = none) := by
  have h : ParseReads { ready [] 0x00000001 with len := 1 } 0 0 :=
    ⟨by decide, by decide, by intro j _ h; omega, by decide⟩
  exact ⟨⟨by decide, h, .inl h, rfl⟩, by decide +kernel,
    .inr ⟨42, 1, by decide +kernel, by decide +kernel, by decide, by decide⟩, by decide +kernel⟩

theorem witness_CommandsFrame :
    (∃ t, exec .nop (ready v7 0) = .next t) ∧ (∃ t, exec (.varint 1) (ready v7 0x10001) = .next t) ∧
    (∃ t, exec .slice (ready v7 2) = .next t) ∧ (∃ t, exec .chkcmp (ready v7 3) = .next t) ∧
    (∃ t, exec .clear (ready v7 4) = .next t) := ⟨⟨_, rfl⟩, ⟨_, rfl⟩, ⟨_, rfl⟩, ⟨_, rfl⟩, ⟨_, rfl⟩⟩

/-- V7. -/
theorem witness_VarintValueIsGroupSum : decodeVarint (loaded v7) 0 = .ok (.ok 624485 3) := by decide

/-- V10, V13, V19, V9. -/
theorem witness_VarintFailsInIndexOrder :
    decodeVarint (loaded [0x80]) 0 = .ok (.err .malformedVarint 1) ∧
    decodeVarint (loaded v7) 256 = .ok (.err .malformedVarint 256) ∧
    decodeVarint (loaded [0xFF, 0xFF, 0xFF, 0xFF, 0xFF, 0xFF, 0xFF, 0xFF, 0xFF, 0x02]) 0 =
      .ok (.err .varintOverflow 9) ∧
    decodeVarint State.reset 0 = .ok (.err .malformedVarint 0) := by decide

/-- V10: the conditions of the first failure, on a written input. -/
theorem witness_VarintFailsInIndexOrder_malformed :
    let s := loaded [0x80]
    s.len.toNat ≤ s.params.N ∧ InputWritten s ∧ groupSum s 0 (s.len.toNat - 0) < 2 ^ s.params.W ∧
      ∀ i, 0 ≤ i → i < s.len.toNat → ∃ b, s.buf.read i = some b ∧ 128 ≤ b.toNat := by
  refine ⟨by decide, by unfold InputWritten; decide, by decide, ?_⟩
  intro i _ h
  have hi : i < 1 := h
  have h0 : i = 0 := by omega
  subst h0
  exact ⟨0x80, by decide, by decide⟩

/-- V30 (W = 1, the byte 0x02): the conditions of the second failure, on a written input. -/
theorem witness_VarintFailsInIndexOrder_overflow :
    let s := { loaded [0x02] with params := { wPred := 0, nWordsPred := 63 } }
    s.len.toNat ≤ s.params.N ∧ InputWritten s ∧ 0 ≤ 0 ∧ 0 < s.len.toNat ∧ groupSum s 0 (0 - 0) < 2 ^ s.params.W ∧
      2 ^ s.params.W ≤ groupSum s 0 (0 - 0 + 1) ∧
      ∀ j, 0 ≤ j → j < 0 → ∃ b, s.buf.read j = some b ∧ 128 ≤ b.toNat := by
  refine ⟨by decide, by unfold InputWritten; decide, by decide, by decide, by decide, by decide, ?_⟩
  intro j _ h
  omega

/-- 300 as 0xAC 0x02, then as 0xAC 0x82 0x80 0x00; and 0 as 0x00, then as 0x80 0x00 (V14). -/
theorem witness_RedundantEncodingsAreAccepted :
    (let s := loaded [0xAC, 0x02]
     let t := loaded [0xAC, 0x82, 0x80, 0x00]
     decodeVarint s 0 = .ok (.ok 300 2) ∧ t.params = s.params ∧
       (∀ j, j + 1 < 2 → t.buf.read (0 + j) = s.buf.read (0 + j)) ∧
       (∃ b, s.buf.read (0 + 2 - 1) = some b ∧ t.buf.read (0 + 2 - 1) = some (b ||| 0x80)) ∧
       (∀ j, j < 1 → t.buf.read (0 + 2 + j) = some 0x80) ∧ t.buf.read (0 + 2 + 1) = some 0x00 ∧
       0 + 2 + 1 < t.len.toNat ∧ t.len.toNat ≤ t.params.N) ∧
    (let s := loaded [0x00]
     let t := loaded [0x80, 0x00]
     decodeVarint s 0 = .ok (.ok 0 1) ∧
       (∃ b, s.buf.read (0 + 1 - 1) = some b ∧ t.buf.read (0 + 1 - 1) = some (b ||| 0x80)) ∧
       t.buf.read (0 + 1 + 0) = some 0x00 ∧ 0 + 1 + 0 < t.len.toNat ∧ t.len.toNat ≤ t.params.N) := by
  refine ⟨⟨by decide, rfl, ?_, ⟨0x02, by decide, by decide⟩, by decide, by decide, by decide, by decide⟩, by decide,
    ⟨0x00, by decide, by decide⟩, by decide, by decide, by decide⟩
  intro j h
  have h0 : j = 0 := by omega
  subst h0
  decide

/-- V6: 300 at index 1, and the largest value of W = 64. -/
theorem witness_VarintRoundTrip :
    let s := loaded [0x55, 0xAC, 0x02]
    let z := loaded [0xFF, 0xFF, 0xFF, 0xFF, 0xFF, 0xFF, 0xFF, 0xFF, 0xFF, 0x01]
    (300 < 2 ^ s.params.W ∧ s.len.toNat ≤ s.params.N ∧ varintEncodeFrom 9 300 = [0xAC, 0x02] ∧
      s.buf.read 1 = some 0xAC ∧ s.buf.read 2 = some 0x02) ∧
    (2 ^ 64 - 1 < 2 ^ z.params.W ∧ z.len.toNat ≤ z.params.N) := by decide

/-- Both sides of 2^7, and 0, which has one byte. -/
theorem witness_VarintEncodeIsShortest :
    127 < 2 ^ 7 ∧ varintEncodeFrom 2 0 = [0x00] ∧ varintEncodeFrom 2 127 = [0x7F] ∧ 1 ≤ 128 ∧
      varintEncodeFrom 2 128 = [0x80, 0x01] := by decide

theorem witness_ScanStepTakesOneByte :
    let s := scanned v7 1 .mv 1 101
    s.phase = .scan ∧ s.shift.toNat ≤ s.params.W ∧ s.cnt.toNat ≤ s.ptr.toNat ∧
      ∃ t, engineStep s = .next t ∧ t.phase = .scan := ⟨by decide, by decide, by decide, _, rfl, by decide⟩

theorem witness_ScanStepFailures :
    let s := scanned [0x80] 1 .mv 1 0
    let z := scanned [0xFF, 0xFF, 0xFF, 0xFF, 0xFF, 0xFF, 0xFF, 0xFF, 0xFF, 0x02] 2 .ms 9 (2 ^ 63 - 1)
    (s.phase = .scan ∧ s.len.toNat ≤ s.ptr.toNat ∧ decode s.lcmd = .ok (.varint 0)) ∧
    (z.phase = .scan ∧ z.ptr.toNat < z.len.toNat ∧ z.ptr.toNat < z.params.N ∧ z.buf.read z.ptr.toNat = some 0x02 ∧
      2 ^ z.params.W ≤ (0x02 : Byte).toNat % 128 * 2 ^ z.shift.toNat ∧ decode z.lcmd = .ok .slice) := by decide

/-- The last byte of V7, and the prefix byte of S4. -/
theorem witness_ScanStepEndsTheParse :
    let s := scanned v7 1 .mv 2 1893
    let z := scanned s4 2 .ms 0 0
    (s.phase = .scan ∧ s.shift.toNat ≤ s.params.W ∧ s.cnt.toNat ≤ s.ptr.toNat ∧ s.ptr.toNat < s.len.toNat ∧
      s.ptr.toNat < s.params.N ∧ s.buf.read s.ptr.toNat = some 0x26 ∧ (0x26 : Byte).toNat < 128 ∧
      (0x26 : Byte).toNat * 2 ^ s.shift.toNat < 2 ^ s.params.W ∧ s.mode = .mv ∧ decode s.lcmd = .ok (.varint 0)) ∧
    (z.phase = .scan ∧ z.shift.toNat ≤ z.params.W ∧ z.cnt.toNat ≤ z.ptr.toNat ∧ z.ptr.toNat < z.len.toNat ∧
      z.ptr.toNat < z.params.N ∧ z.buf.read z.ptr.toNat = some 0x2A ∧ (0x2A : Byte).toNat < 128 ∧
      (0x2A : Byte).toNat * 2 ^ z.shift.toNat < 2 ^ z.params.W ∧ z.mode = .ms) := by decide +kernel

/-- S9, S2 and S4. -/
theorem witness_SliceAddressByCases :
    decodeVarint State.reset 0 = .ok (.err .malformedVarint 0) ∧
    (decodeVarint (loaded (s4.take 68)) 0 = .ok (.ok 42 1) ∧ (loaded (s4.take 68)).len.toNat < 1 + 68) ∧
    (decodeVarint (loaded s4) 0 = .ok (.ok 42 1) ∧ 1 + 68 ≤ (loaded s4).len.toNat ∧
      (loaded s4).len.toNat ≤ (loaded s4).params.N ∧ InputWritten (loaded s4)) := by
  unfold InputWritten; decide +kernel

theorem witness_CheckStepTruncates :
    let s := { scanned (s4.take 68) 2 .ms 1 42 with phase := .check }
    s.phase = .check ∧ decode s.lcmd = .ok .slice ∧ s.len.toNat < s.cnt.toNat + 68 := by decide +kernel

theorem witness_CheckStepLatchesSlices :
    let s := { scanned s4 2 .ms 1 42 with phase := .check }
    s.phase = .check ∧ decode s.lcmd = .ok .slice ∧ s.cnt.toNat + 68 ≤ s.len.toNat ∧ s.len.toNat ≤ s.params.N ∧
      InputWritten s := by
  unfold InputWritten; decide +kernel

/-- S8: S1's bytes with others after them. -/
theorem witness_BytesAfterChecksumAreIgnored :
    sliceAddress (loaded s4) = .ok (.ok (cutSlices 42 1 (s4.drop 1))) ∧ 1 + 68 ≤ (70 : Index).toNat ∧
      ∀ i, i < 1 + 68 → (bufOf (s4 ++ [0xEE])).read i = (loaded s4).buf.read i := by decide +kernel

/-- Both sides of each bound of R47. -/
theorem witness_SlverrExactlyAsListed :
    let n := State.reset.params.N
    target n 0x033 = none ∧ target n 0x030 = some .digest ∧ target n 0x034 = none ∧ target n 0x03C = none ∧
    target n 0x040 = some (.spend 0) ∧ target n 0x07C = some (.view 7) ∧ target n 0x080 = none ∧
    target n 0xFFC = none ∧ target n 0x1000 = some (.bufWord 0) ∧ target n 0x10FC = some (.bufWord 63) ∧
    target n 0x1100 = none ∧ writeRefused .len 256 State.reset = false ∧ writeRefused .len 257 State.reset = true := by
  decide

theorem witness_HardwiredRegistersNeverChange : ∃ t, step (ready v7 1) = .next t := ⟨_, rfl⟩

theorem witness_CommandIsAccepted : State.reset.phase = .idle := rfl

theorem witness_BusyWritesAreDropped :
    let s := ready v7 1
    s.phase ≠ .idle ∧ (256 : Word).toNat ≤ s.params.N ∧ s.params.N < (257 : Word).toNat ∧ 4 * 63 < s.params.N ∧
      target s.params.N 0x10FC = some (.bufWord 63) := by decide

theorem witness_InputWritesInvalidate :
    sliced.phase = .idle ∧ sliced.svalid = true ∧ (256 : Word).toNat ≤ sliced.params.N ∧ 4 * 63 < sliced.params.N := by
  decide +kernel

theorem witness_BufferWindowWrites : State.reset.phase = .idle ∧ 4 * 63 < State.reset.params.N := by decide

theorem witness_BufferWindowReads :
    let s := loaded [0xAA, 0xE5, 0x8E, 0x26]
    4 * 0 < s.params.N ∧ ∀ j : Fin 4, s.buf.read (4 * 0 + j.val) = some (#v[0xAA, 0xE5, 0x8E, 0x26][j]) := by decide

theorem witness_ReadsHaveNoSideEffect : (busRead 0x1004 State.reset).2.draws ≠ State.reset.draws := by decide

theorem witness_IrqIsLevel :
    ((ready v7 0).phase ≠ .idle ∧ ∃ t, engineStep (ready v7 0) = .next t ∧ t.phase = .idle) ∧
      State.reset.phase = .idle := ⟨⟨by decide, _, rfl, rfl⟩, rfl⟩

theorem witness_ResetAbortsAndClears :
    { ready v7 1 with turns := [.rst, .host] }.turns = .rst :: [.host] := rfl

theorem witness_InputsAreFrozenWhileBusy :
    let s := { ready v7 1 with turns := [.host], script := [.write 0x014 2] }
    s.phase ≠ .idle ∧ (∃ t, step s = .next t) ∧ ∀ rest, s.turns ≠ .rst :: rest :=
  ⟨by decide, ⟨_, rfl⟩, by intro rest h; cases h⟩

/-- V10 from its `SCAN` steps on. -/
theorem witness_ErrorsArePrecise_run :
    (ready [0x80] 1).phase ≠ .idle ∧
      ∃ t, engineRun 3 (ready [0x80] 1) = .next t ∧ t.phase = .idle ∧ t.err ≠ .noError :=
  ⟨by decide, _, rfl, by decide, by decide⟩

theorem witness_ErrorsArePrecise :
    (∃ t, engineStep (scanned [0x80] 1 .mv 1 0) = .next t ∧ t.phase = .idle ∧ t.err ≠ .noError ∧
      decode (scanned [0x80] 1 .mv 1 0).lcmd = .ok (.varint 0)) ∧
    (∃ t, engineStep (scanned [0x80] 2 .ms 1 0) = .next t ∧ t.phase = .idle ∧ t.err ≠ .noError ∧
      decode (scanned [0x80] 2 .ms 1 0).lcmd = .ok .slice) ∧
    (∃ t, engineStep (ready [] 3) = .next t ∧ t.phase = .idle ∧ t.err ≠ .noError ∧
      decode (ready [] 3).lcmd = .ok .chkcmp ∧ (ready [] 3).phase = .decode) :=
  ⟨⟨_, rfl, by decide, by decide, by decide⟩, ⟨_, rfl, by decide, by decide, by decide⟩,
    ⟨_, rfl, by decide, by decide, by decide, rfl⟩⟩

/-- An error that stays, that an accept clears, that reset clears. -/
theorem witness_ErrorStaysUntilAccept :
    let s := complete none .illegalCommand 5 (loaded v7)
    s.phase = .idle ∧ (∃ t, step s = .next t ∧ t.err = .illegalCommand) ∧
      (∃ t, step { s with script := [.write 0x010 0] } = .next t ∧ t.phase = .decode) ∧
      ∃ t, step { s with turns := [.rst] } = .next t :=
  ⟨rfl, ⟨_, rfl, rfl⟩, ⟨_, rfl, rfl⟩, ⟨_, rfl⟩⟩

/-- A `VARINT` accepted over V7's bytes meets the invariant. -/
theorem ready_blockInv : BlockInv (ready v7 0x00000001) where
  buf_wf := by decide
  buf_within := by decide
  len_le := by decide
  value_lt := by decide
  acc_lt := by decide
  shift_le := by decide
  consumed_pos := by decide
  cmatch_svalid := by decide
  busy_clear := by decide
  errinfo_fits := rfl
  scanning := by intro h; cases h
  checking := by intro h; cases h

/-- `SCAN` of V7 after byte 0 meets the invariant. -/
theorem scanned_blockInv : BlockInv (scanned v7 1 .mv 1 101) where
  buf_wf := by decide
  buf_within := by decide
  len_le := by decide
  value_lt := by decide
  acc_lt := by decide
  shift_le := by decide
  consumed_pos := by decide
  cmatch_svalid := by decide
  busy_clear := by decide
  errinfo_fits := rfl
  scanning := fun _ => ⟨0, by decide, by decide, by decide, by decide, by decide, .inl ⟨rfl, by decide⟩⟩
  checking := by intro h; cases h

/-- A completed `SLICE` meets the invariant. -/
theorem sliced_blockInv : BlockInv sliced where
  buf_wf := by decide +kernel
  buf_within := by decide +kernel
  len_le := by decide +kernel
  value_lt := by decide +kernel
  acc_lt := by decide +kernel
  shift_le := by decide +kernel
  consumed_pos := by decide +kernel
  cmatch_svalid := by decide +kernel
  busy_clear := by decide +kernel
  errinfo_fits := rfl
  scanning := by intro h; cases h
  checking := by intro h; cases h

/-- An input byte that nothing has written: the invariant holds and the next step faults. -/
theorem witness_EngineFaultsOnlyOnUnwrittenInput :
    let s := { scanned v7 1 .mv 1 101 with buf := [(0, 0xE5)] }
    (BlockInv s ∧ step s = .fault .unwrittenByte) ∧
      BlockInv (scanned v7 1 .mv 1 101) ∧ InputWritten (scanned v7 1 .mv 1 101) := by
  refine ⟨⟨?_, rfl⟩, scanned_blockInv, by unfold InputWritten; decide⟩
  have h := scanned_blockInv
  exact ⟨by decide, by decide, h.len_le, h.value_lt, h.acc_lt, h.shift_le, h.consumed_pos, h.cmatch_svalid, h.busy_clear,
    rfl, fun _ => ⟨0, by decide, by decide, by decide, by decide, by decide, .inl ⟨rfl, by decide⟩⟩,
    by intro h; cases h⟩

/-- `VARINT` over V7's bytes; `CHKCMP`, an illegal word and `VARINT off` beyond `LEN` over an input nothing has written. -/
theorem witness_EveryCommandCompletes :
    ((ready v7 1).phase = .decode ∧ (ready v7 1).len.toNat ≤ (ready v7 1).params.N ∧
      ∀ i, CommandReads (ready v7 1) i → ∃ b, (ready v7 1).buf.read i = some b) ∧
    ∀ c, c = 0x00000003 ∨ c = 0x00000005 ∨ c = 0x00030001 →
      let s := { ready [] c with len := 3 }
      s.phase = .decode ∧ s.len.toNat ≤ s.params.N ∧ ∀ i, CommandReads s i → ∃ b, s.buf.read i = some b := by
  refine ⟨⟨rfl, by decide, ?_⟩, ?_⟩
  · have hw : InputWritten (ready v7 1) := by unfold InputWritten; decide
    rintro i (⟨off, _, h⟩ | ⟨h, _⟩)
    · exact Option.isSome_iff_exists.1 (hw i h.2.1)
    · cases h
  · rintro c (rfl | rfl | rfl) <;> refine ⟨rfl, by decide, ?_⟩ <;> rintro i (⟨off, h, g⟩ | ⟨h, _⟩) <;> cases h
    have h1 : 3 ≤ i := g.1
    have h2 : i < 3 := g.2.1
    omega

theorem witness_WaitEnds :
    let s := { scanned v7 1 .mv 1 101 with script := [.wait, .read 0x018] }
    BlockInv s ∧ InputWritten s ∧ s.turns = [] ∧ s.script = .wait :: [.read 0x018] := by
  have h := scanned_blockInv
  refine ⟨⟨h.buf_wf, h.buf_within, h.len_le, h.value_lt, h.acc_lt, h.shift_le, h.consumed_pos, h.cmatch_svalid,
    h.busy_clear, rfl, fun _ => ⟨0, by decide, by decide, by decide, by decide, by decide, .inl ⟨rfl, by decide⟩⟩,
    by intro h; cases h⟩, by unfold InputWritten; decide, rfl, rfl⟩

theorem witness_HostMovesDoNotDisturbTheEngine :
    let s := { scanned v7 1 .mv 1 101 with script := [.write 0x1000 0] }
    s.phase ≠ .idle ∧ ∃ t, engineStep s = .next t := ⟨by decide, _, rfl⟩

theorem witness_BytesFromLenAreNeverRead :
    let s := scanned v7 1 .mv 1 101
    ∀ i, i < s.len.toNat → (bufOf (v7 ++ [0x99, 0x99])).read i = s.buf.read i := by decide

theorem witness_StepKeepsInv :
    BlockInv (scanned v7 1 .mv 1 101) ∧ ∃ t, step (scanned v7 1 .mv 1 101) = .next t ∧ t.phase = .scan :=
  ⟨scanned_blockInv, _, rfl, by decide⟩

/-- A completed `SLICE`: `SVALID` is set and its meaning holds; the next step invalidates it. -/
theorem witness_StepKeepsSliceCurrent :
    BlockInv sliced ∧ ScanAgrees sliced ∧ SliceCurrent sliced ∧ sliced.svalid = true ∧ ∃ t, step sliced = .next t := by
  refine ⟨sliced_blockInv, And.intro (by intro h; cases h) (by intro h; cases h), ?_, by decide +kernel, _, rfl⟩
  intro _
  exact ⟨cutSlices 42 1 (s4.drop 1), by decide +kernel, by decide +kernel, rfl, rfl, rfl⟩

/-- The same in the middle of a scan. -/
theorem witness_StepKeepsSliceCurrent_scan :
    let s := scanned v7 1 .mv 1 101
    BlockInv s ∧ ScanAgrees s ∧ SliceCurrent s ∧ ∃ t, step s = .next t := by
  refine ⟨scanned_blockInv, And.intro ?_ (by intro h; cases h), (by intro h; cases h), _, rfl⟩
  intro _ off h
  have h0 : off = 0 := by
    have h1 := h.ptr_eq
    have h2 : (scanned v7 1 .mv 1 101).ptr.toNat = 1 := by decide
    have h3 : (scanned v7 1 .mv 1 101).cnt.toNat = 1 := by decide
    omega
  subst h0
  decide

theorem witness_LoadBufLoads :
    let s := { State.reset with script := HostStmt.expand (.loadBuf v7) ++ [HostOp.read 0] }
    s.phase = .idle ∧ s.turns = [] ∧ v7.length ≤ s.params.N ∧ s.script = HostStmt.expand (.loadBuf v7) ++ [HostOp.read 0] := by
  decide

theorem witness_AddressPipelineChecksDigest :
    let s := { loaded s4 with script := expandProgram [.run (encode .slice), .setDig 0xA3A2A1A0, .run (encode .chkcmp)] }
    s.phase = .idle ∧ s.turns = [] ∧ sliceAddress s = .ok (.ok (cutSlices 42 1 (s4.drop 1))) ∧
      s.script = expandProgram [.run (encode .slice), .setDig 0xA3A2A1A0, .run (encode .chkcmp)] := by decide +kernel

end Sys2Proof.Tests
end

namespace Sys2Proof.Machine

/-! # Proofs of the family "state": what every step keeps

A step is a host move, an engine step or `RST`. `step_keeps` packages that once; each invariant is then four goals. -/

/-! ## What a host move does to the block -/

/-- What a taken write of `CMD`, `LEN`, `DIGEST` or the buffer window makes of an idle block (R30, R93, R95). -/
inductive InputWrite (s : State) : State → Prop
  | cmd (c : Word) : InputWrite s (accept c s)
  | len (d : Word) (h : d.toNat ≤ s.params.N) : InputWrite s (invalidate { s with len := d.setWidth 17 })
  | digest (d : Word) : InputWrite s { s with digest := d }
  | window (k : Nat) (d : Word) (h : 4 * k < s.params.N) :
      InputWrite s (invalidate { s with buf := s.buf.writeWord (4 * k) d })

theorem SameButHostSide.trans {s t u : State} (h : SameButHostSide s t) (g : SameButHostSide t u) :
    SameButHostSide s u := by
  unfold SameButHostSide at *
  rw [g, h]

/-- The effect of a write that is not refused: of `CTRL` on the host's side alone, else an `InputWrite`. -/
theorem applyWrite_effect {s : State} {a : Nat} {d : Word} {r : Reg} (ht : target s.params.N a = some r)
    (hr : writeRefused r d s = false) : SameButHostSide s (applyWrite r d s) ∨ InputWrite s (applyWrite r d s) := by
  cases r with
  | cmd => exact .inr (.cmd d)
  | len =>
    have hd : d.toNat ≤ s.params.N := by simpa [writeRefused, Reg.readOnly] using hr
    exact .inr (.len d hd)
  | digest => exact .inr (.digest d)
  | bufWord k =>
    have hk := (target_bufWord ht).2
    exact .inr (.window k d (by omega))
  | _ => exact .inl rfl

/-- A write changes the host's side, or, in the idle block, does what `InputWrite` says (R94, R95). -/
theorem busWrite_effect (a : Nat) (d : Word) (s : State) :
    SameButHostSide s (busWrite a d s).2 ∨ (s.phase = .idle ∧ InputWrite s (busWrite a d s).2) := by
  cases hb : s.busy with
  | true => left; unfold SameButHostSide; rw [busWrite_busy hb]
  | false =>
    rcases busWrite_cases a d s with h | ⟨_, h⟩ | ⟨r, ht, hr, _, h⟩ <;> rw [h]
    · exact .inl rfl
    · exact .inl rfl
    · exact (applyWrite_effect ht hr).imp_right fun g => ⟨busy_eq_false.1 hb, g⟩

/-- A host move changes the host's side, and before that, in the idle block, may do what `InputWrite` says (R53). -/
theorem hostStep_effect (s : State) :
    SameButHostSide s (hostStep s) ∨ (s.phase = .idle ∧ ∃ u, InputWrite s u ∧ SameButHostSide u (hostStep s)) := by
  have hread : ∀ a (u : State), SameButHostSide u (note (busRead a u)) := fun a u => by
    unfold SameButHostSide note; rw [busRead_state]
  rcases hostStep_cases s with ⟨_, h⟩ | ⟨a, rest, _, h⟩ | ⟨a, d, rest, _, h⟩ | ⟨rest, _, _, h⟩ | ⟨rest, _, _, h⟩ <;>
    rw [h]
  · exact .inl rfl
  · exact .inl (.trans (t := { s with script := rest }) rfl (hread a _))
  · rw [busWrite_script]
    have hnote : SameButHostSide (busWrite a d s).2
        (note ((busWrite a d s).1, { (busWrite a d s).2 with script := rest })) := rfl
    exact (busWrite_effect a d s).imp (·.trans hnote) fun ⟨hp, g⟩ => ⟨hp, _, g, hnote⟩
  · exact .inl (hread _ s)
  · exact .inl (.trans (t := { s with script := rest }) rfl (hread _ _))

/-- Every step keeps what a change of the host's side, an `InputWrite` of the idle block, an engine step and `RST` keep
(R53). -/
theorem step_keeps {P : State → Prop} (hside : ∀ {s t}, SameButHostSide s t → P s → P t)
    (hinput : ∀ {s t}, s.phase = .idle → InputWrite s t → P s → P t)
    (hengine : ∀ {s t}, engineStep s = .next t → P s → P t) (hreset : ∀ {s}, P s → P (resetBlock s))
    {s t : State} (hs : P s) (h : step s = .next t) : P t := by
  have hhost : ∀ {u}, P u → P (hostStep u) := fun {u} hu =>
    match hostStep_effect u with
    | .inl g => hside g hu
    | .inr ⟨hp, _, hw, g⟩ => hside g (hinput hp hw hu)
  have hturn : ∀ rest, P { s with turns := rest } := fun rest => hside rfl hs
  rcases step_next h with ⟨rest, _, rfl⟩ | ⟨rest, _, g⟩ | ⟨rest, _, rfl⟩ | ⟨_, _, g⟩ | ⟨_, _, rfl⟩
  · exact hhost (hturn rest)
  · exact hengine g (hturn rest)
  · exact hreset (hturn rest)
  · exact hengine g hs
  · exact hhost hs

/-! ## The decoder's answers the invariant needs -/

/-- The offset of a decoded `VARINT` fits its field (R61). -/
theorem decode_varint_le {c : Word} {off : Nat} (h : decode c = .ok (.varint off)) : off ≤ 65535 := by
  have hlt := (offsetField c).isLt
  obtain ⟨-, h⟩ := decode_eq_ok h
  simp at h
  omega

/-- A legal word decodes (R65). -/
theorem decode_of_legal {c : Word} (h : legal c = true) : ∃ i, decode c = .ok i := by
  simp only [legal, Bool.and_eq_true, Bool.or_eq_true, beq_iff_eq] at h
  obtain ⟨hr, ho | ⟨((ho | ho) | ho) | ho, hz⟩⟩ := h <;> simp [decode, withoutOffset, *]

/-- A latched word without a command is not legal (R63, R98). -/
theorem legal_of_latched_none {s : State} (h : latched s = none) : legal s.lcmd = false := by
  by_contra hl
  obtain ⟨i, hi⟩ := decode_of_legal (by simpa using hl)
  simp [latched_of_decode hi] at h

/-! ## The invariant of the block -/

/-- A completion sets no valid bit: `VVALID` (R98). -/
theorem vvalid_of_completed {cmd : Option Instr} {e : ErrCode} {v : Bool} (h : completedVvalid cmd e v = true) :
    v = true := by
  cases cmd with
  | none => exact h
  | some i => cases i <;> simp_all [completedVvalid]

/-- A completion that leaves `CMATCH` set leaves `SVALID` as it was (R98). -/
theorem completed_of_cmatch {cmd : Option Instr} {v : Bool} (h : completedCmatch cmd v = true) (e : ErrCode)
    (w : Bool) : v = true ∧ completedSvalid cmd e w = w := by
  cases cmd with
  | none => exact ⟨h, rfl⟩
  | some i => cases i <;> simp_all [completedCmatch, completedSvalid]

theorem ScanAt.congr {s t : State} {off : Nat} (h : SameButHostSide s t) : ScanAt s off ↔ ScanAt t off := by
  rw [h]
  exact ⟨fun g => { g with }, fun g => { g with }⟩

theorem SameButHostSide.blockInv {s t : State} (h : SameButHostSide s t) (hi : BlockInv s) : BlockInv t := by
  have hscan : ∀ {off}, ScanAt s off → ScanAt t off := (ScanAt.congr h).1
  rw [h] at hscan ⊢
  exact { hi with
    scanning := fun hp => (hi.scanning hp).imp fun _ => hscan
    checking := fun hp => (hi.checking hp).imp_left hscan }

/-- A scan for `SLICE` starts at 0 (R97). -/
theorem ScanAt.off_eq_zero {s : State} {off : Nat} (h : ScanAt s off) (hm : s.mode = .ms) : off = 0 := by
  rcases h.command with ⟨hm', _⟩ | ⟨_, h0, _⟩
  · cases hm.symm.trans hm'
  · exact h0

/-- The scan started at `off` by the latched command (R97) meets `ScanAt`. -/
theorem startScan_scanAt {s : State} {m : Mode} {off : Nat} (hoff : off ≤ 65535)
    (hcmd : (m = .mv ∧ latched s = some (.varint off)) ∨ (m = .ms ∧ off = 0 ∧ latched s = some .slice)) :
    ScanAt (startScan m off s) off where
  off_le := hoff
  ptr_eq := (startScan_regs hoff).ptr
  inside := .inl rfl
  shift_eq := (startScan_regs hoff).shift
  acc_lt := by simp
  command := hcmd

/-- One more byte that fits keeps the scan registers what `ScanAt` says, and `ACC` below 2^W (R74, R78). -/
theorem ScanAt.consumeByte {s : State} {off : Nat} {b : Byte} (h : ScanAt s off) (hW : s.acc.toNat < 2 ^ s.params.W)
    (hl : s.ptr.toNat < s.len.toNat) (hc : contribution b s.shift.toNat < 2 ^ s.params.W) :
    ScanAt (consumeByte b s) off ∧ (Machine.consumeByte b s).acc.toNat < 2 ^ s.params.W := by
  obtain ⟨hregs, hcnt, hptr, hacc⟩ := consume_facts (b := b) ⟨h.ptr_eq, h.shift_eq⟩ hl hc
  have hfit : b.toNat % 128 * 2 ^ (7 * s.cnt.toNat) < 2 ^ s.params.W := by
    rw [h.shift_eq] at hc
    have hsat := (contribution_saturate b (7 * s.cnt.toNat) s.params.W).2 hc
    rw [← contribution_eq]
    omega
  rw [or_eq_add b _ h.acc_lt] at hacc
  refine ⟨⟨h.off_le, hregs.ptr, .inr (by rw [hptr]; exact hl), hregs.shift, ?_, h.command⟩, ?_⟩
  · have hg : b.toNat % 128 * 2 ^ (7 * s.cnt.toNat) ≤ 127 * 2 ^ (7 * s.cnt.toNat) := Nat.mul_le_mul_right _ (by omega)
    have hp : 2 ^ (7 * (s.cnt.toNat + 1)) = 128 * 2 ^ (7 * s.cnt.toNat) := by rw [Nat.mul_add, Nat.pow_add]; omega
    have := h.acc_lt
    rw [hacc, hcnt, hp]
    omega
  · rw [hacc]
    exact add_lt_of_fits h.acc_lt hW hfit

/-- A completion whose code allows its `ERRINFO` keeps the invariant (R98). -/
theorem BlockInv.complete {s : State} {cmd : Option Instr} {e : ErrCode} {n : Nat} (h : BlockInv s)
    (he : errinfoFits (complete cmd e n s)) : BlockInv (complete cmd e n s) :=
  { h with
    consumed_pos := fun hv => h.consumed_pos (vvalid_of_completed hv)
    cmatch_svalid := fun hm =>
      have ⟨hm', hs⟩ := completed_of_cmatch hm e s.svalid
      hs.trans (h.cmatch_svalid hm')
    busy_clear := nofun
    errinfo_fits := he
    scanning := nofun
    checking := nofun }

/-- Latching a value that fits and a count that is not 0 keeps the invariant (R78, R79). -/
theorem BlockInv.latchValue {s : State} {v n : Nat} (h : BlockInv s) (hv : v < 2 ^ s.params.W) (hn : 1 ≤ n)
    (hn' : n < 2 ^ 17) : BlockInv (latchValue v n s) :=
  { h with
    value_lt := (Nat.mod_le v (2 ^ 64)).trans_lt hv
    consumed_pos := fun _ => by rw [latchValue_consumed, BitVec.toNat_ofNat, Nat.mod_eq_of_lt hn']; exact hn
    scanning := fun hp => (h.scanning hp).imp fun _ g => { g with }
    checking := fun hp => (h.checking hp).imp_left fun g => { g with } }

/-- Latching slices whose value and count are such keeps the invariant (R88). -/
theorem BlockInv.latchSlices {s : State} {x : Slices} (h : BlockInv s) (hv : x.pfx < 2 ^ s.params.W) (hn : 1 ≤ x.p)
    (hn' : x.p < 2 ^ 17) : BlockInv (latchSlices x s) :=
  have g := h.latchValue hv hn hn'
  { g with
    cmatch_svalid := fun _ => rfl
    scanning := fun hp => (g.scanning hp).imp fun _ k => { k with }
    checking := fun hp => (g.checking hp).imp_left fun k => { k with } }

/-- `ClearAll` keeps the invariant (R100). -/
theorem BlockInv.clearAll {s : State} (h : BlockInv s) : BlockInv (clearAll s) :=
  { h with
    value_lt := Nat.two_pow_pos _
    consumed_pos := nofun
    cmatch_svalid := nofun
    scanning := fun hp => (h.scanning hp).imp fun _ g => { g with }
    checking := fun hp => (h.checking hp).imp_left fun g => { g with } }

/-- A `CMATCH` that is set only with `SVALID` keeps the invariant (R91). -/
theorem BlockInv.setCmatch {s : State} (h : BlockInv s) (c : Bool) (hc : c = true → s.svalid = true) :
    BlockInv { s with cmatch := c } :=
  { h with
    cmatch_svalid := hc
    scanning := fun hp => (h.scanning hp).imp fun _ g => { g with }
    checking := fun hp => (h.checking hp).imp_left fun g => { g with } }

/-- The start of a scan by the latched command keeps the invariant (R97). -/
theorem BlockInv.startScan {s : State} {m : Mode} {off : Nat} (h : BlockInv s) (hp : s.phase = .decode)
    (g : ScanAt (startScan m off s) off) : BlockInv (startScan m off s) :=
  { h with
    acc_lt := Nat.two_pow_pos _
    shift_le := Nat.zero_le _
    busy_clear := fun _ => h.busy_clear (busy_eq_true.2 (by simp [hp]))
    scanning := fun _ => ⟨off, g⟩
    checking := nofun }

/-- One more byte of a scan keeps the invariant, whether the scan goes on (R78). -/
theorem BlockInv.consumeByte {s : State} {off : Nat} {b : Byte} (h : BlockInv s) (hp : s.phase = .scan)
    (g : ScanAt s off) (hl : s.ptr.toNat < s.len.toNat) (hc : contribution b s.shift.toNat < 2 ^ s.params.W) :
    BlockInv (consumeByte b s) :=
  have ⟨g', hacc⟩ := g.consumeByte h.acc_lt hl hc
  { h with
    acc_lt := hacc
    shift_le := by rw [g'.shift_eq]; exact Nat.min_le_right ..
    scanning := fun _ => ⟨off, g'⟩
    checking := fun hp' => by cases hp.symm.trans hp' }

/-- A `SLICE` whose first field was scanned enters `CHECK` with the invariant (R78). -/
theorem BlockInv.enterCheck {s : State} (h : BlockInv s) (hp : s.phase = .scan) (g : ScanAt s 0) (hm : s.mode = .ms)
    (hn : 1 ≤ s.cnt.toNat) : BlockInv { s with phase := .check } :=
  { h with
    busy_clear := fun _ => h.busy_clear (busy_eq_true.2 (by simp [hp]))
    scanning := nofun
    checking := fun _ => ⟨{ g with }, hm, hn⟩ }

/-- `CHKCMP` completes with a `CMATCH` that is set only with `SVALID`, and with an `ERRINFO` its code allows (R91). -/
theorem execChkcmp_next {s t : State} (h : exec .chkcmp s = .next t) :
    ∃ c e n, t = complete (some .chkcmp) e n { s with cmatch := c } ∧ (c = true → s.svalid = true) ∧ errinfoFits t := by
  replace h : execChkcmp s = .next t := h
  rcases execChkcmp_cases s with ⟨_, g⟩ | ⟨hs, _, g⟩ | ⟨_, hm, g⟩ <;> cases g.symm.trans h
  · exact ⟨_, _, _, rfl, nofun, rfl⟩
  · exact ⟨_, _, _, rfl, fun _ => hs, rfl⟩
  · refine ⟨_, _, _, rfl, nofun, ?_⟩
    have := differenceMask_lt s.chk s.digest
    simp [errinfoFits]
    omega

/-- The DecodeStep of the latched command keeps the invariant (R97). -/
theorem BlockInv.exec {s t : State} {i : Instr} (h : BlockInv s) (hp : s.phase = .decode) (hd : decode s.lcmd = .ok i)
    (he : exec i s = .next t) : BlockInv t := by
  have hcmd := latched_of_decode hd
  cases i with
  | nop => cases he; exact h.complete rfl
  | varint off => cases he; exact h.startScan hp (startScan_scanAt (decode_varint_le hd) (.inl ⟨rfl, hcmd⟩))
  | slice => cases he; exact h.startScan hp (startScan_scanAt (by omega) (.inr ⟨rfl, rfl, hcmd⟩))
  | clear => cases he; exact h.clearAll.complete rfl
  | chkcmp =>
    obtain ⟨c, _, _, rfl, hc, hfit⟩ := execChkcmp_next he
    exact (h.setCmatch c hc).complete hfit

/-- A `SCAN` step keeps the invariant (R78). -/
theorem BlockInv.scanStep {s t : State} (h : BlockInv s) (hp : s.phase = .scan) (he : scanStep s = .next t) :
    BlockInv t := by
  obtain ⟨off, g⟩ := h.scanning hp
  have hoff := g.off_le
  have hptr := g.ptr_eq
  have hin := g.inside
  have hlen := h.len_le
  rcases scanStep_next he with ⟨_, rfl⟩ | ⟨b, hl, _, ⟨_, rfl⟩ | ⟨hc, _, rfl⟩ | ⟨hc, _, rfl⟩⟩
  · refine h.complete ?_
    simp [errinfoFits]
    omega
  · refine h.complete ?_
    simp [errinfoFits]
    omega
  · exact h.consumeByte hp g hl hc
  · have h' := h.consumeByte hp g hl hc
    have ⟨g', _⟩ := g.consumeByte h.acc_lt hl hc
    obtain ⟨-, hcnt, -⟩ := consume_facts (b := b) ⟨g.ptr_eq, g.shift_eq⟩ hl hc
    rcases finishScan_cases (Machine.consumeByte b s) with ⟨_, hf⟩ | ⟨hm, hf⟩ <;> rw [hf]
    · exact (h'.latchValue h'.acc_lt (by omega) (BitVec.isLt _)).complete rfl
    · obtain rfl := g'.off_eq_zero hm
      exact h'.enterCheck hp g' hm (by omega)

/-- A `CHECK` step keeps the invariant (R88). -/
theorem BlockInv.checkStep {s t : State} (h : BlockInv s) (hp : s.phase = .check) (he : checkStep s = .next t) :
    BlockInv t := by
  obtain ⟨_, _, hcnt⟩ := h.checking hp
  have hlt := s.cnt.isLt
  rcases checkStep_next he with ⟨_, rfl⟩ | ⟨bs, _, _, rfl⟩
  · refine h.complete ?_
    simp [errinfoFits]
    omega
  · exact (h.latchSlices h.acc_lt hcnt hlt).complete rfl

/-- An engine step keeps the invariant (R96). -/
theorem BlockInv.engineStep {s t : State} (h : BlockInv s) (he : engineStep s = .next t) : BlockInv t := by
  rcases engineStep_next he with ⟨_, rfl⟩ | ⟨hp, i, hd, g⟩ | ⟨_, hn, rfl⟩ | ⟨hp, g⟩ | ⟨hp, g⟩
  · exact h
  · exact h.exec hp hd g
  · exact h.complete ⟨by simp, legal_of_latched_none hn⟩
  · exact h.scanStep hp g
  · exact h.checkStep hp g

/-- A taken write of an idle block keeps the invariant (R93, R95). -/
theorem BlockInv.inputWrite {s t : State} (h : BlockInv s) (hp : s.phase = .idle) (hw : InputWrite s t) :
    BlockInv t := by
  have hscan : s.phase ≠ .scan := by simp [hp]
  have hcheck : s.phase ≠ .check := by simp [hp]
  cases hw with
  | cmd c =>
    exact { h with
      busy_clear := fun _ => ⟨rfl, rfl⟩, errinfo_fits := rfl, scanning := nofun, checking := nofun }
  | len d hd =>
    have hN := N_le s.params
    exact { h with
      len_le := by simp; omega
      cmatch_svalid := nofun
      scanning := fun hp' => absurd hp' hscan
      checking := fun hp' => absurd hp' hcheck }
  | digest d =>
    exact { h with
      scanning := fun hp' => absurd hp' hscan
      checking := fun hp' => absurd hp' hcheck }
  | window k d hk =>
    have hfit : 4 * k + 4 ≤ s.params.N := by simp only [Params.N] at *; omega
    exact { h with
      buf_wf := Memory.wf_writeWord h.buf_wf _ d
      buf_within := Memory.within_writeWord h.buf_within d hfit
      cmatch_svalid := nofun
      scanning := fun hp' => absurd hp' hscan
      checking := fun hp' => absurd hp' hcheck }

/-- Reset meets the invariant, for every W and N and whatever the host's side (R41, R117). -/
theorem resetBlock_blockInv (s : State) : BlockInv (resetBlock s) where
  buf_wf := .nil
  buf_within := nofun
  len_le := Nat.zero_le _
  value_lt := Nat.two_pow_pos _
  acc_lt := Nat.two_pow_pos _
  shift_le := Nat.zero_le _
  consumed_pos := nofun
  cmatch_svalid := nofun
  busy_clear := nofun
  errinfo_fits := rfl
  scanning := nofun
  checking := nofun

/-- Settles O55: each kind of step keeps the invariant. -/
theorem stepKeepsInv : Obligations.StepKeepsInv := fun _ _ hs h =>
  step_keeps SameButHostSide.blockInv (fun hp hw hi => hi.inputWrite hp hw) (fun he hi => hi.engineStep he)
    (fun _ => resetBlock_blockInv _) hs h

/-- Settles O54: reset is `RST` on the reset state. -/
theorem resetMeetsInv : Obligations.ResetMeetsInv := resetBlock_blockInv State.reset

/-! ## The meaning of `SVALID` and of the scan registers -/

/-- A `SLICE` whose completion leaves `SVALID` set had it set before (R98). -/
theorem svalid_of_completed {cmd : Option Instr} {e : ErrCode} {v : Bool} (h : completedSvalid cmd e v = true) :
    v = true := by
  cases cmd with
  | none => exact h
  | some i => cases i <;> simp_all [completedSvalid]

/-- A scan has one start (R78). -/
theorem ScanAt.off_unique {s : State} {a b : Nat} (h : ScanAt s a) (g : ScanAt s b) : a = b := by
  have := h.ptr_eq
  have := g.ptr_eq
  omega

/-- Where no scan and no check runs, there is nothing to agree on. -/
theorem scanAgrees_of_phase {s : State} (h : s.phase = .idle ∨ s.phase = .decode) : ScanAgrees s :=
  ⟨fun hp => by simp [hp] at h, fun hp => by simp [hp] at h⟩

/-- The meaning of `SVALID` depends on `BUF`, `LEN` and the slice registers, and holds where `SVALID` is clear (R23). -/
theorem SliceCurrent.congr {s t : State} (h : SliceCurrent s) (hp : t.params = s.params) (hb : t.buf = s.buf)
    (hl : t.len = s.len) (hr : t.bodyLen = s.bodyLen ∧ t.chk = s.chk ∧ t.spend = s.spend ∧ t.view = s.view)
    (hv : t.svalid = true → s.svalid = true) : SliceCurrent t := by
  intro ht
  obtain ⟨hlen, hchk, hspend, hview⟩ := hr
  rw [sliceAddress_congr hp hl hb, hlen, hchk, hspend, hview]
  exact h (hv ht)

theorem SliceCurrent.complete {s : State} {cmd : Option Instr} {e : ErrCode} {n : Nat} (h : SliceCurrent s) :
    SliceCurrent (complete cmd e n s) :=
  h.congr rfl rfl rfl ⟨rfl, rfl, rfl, rfl⟩ svalid_of_completed

theorem scanAgrees_complete (cmd : Option Instr) (e : ErrCode) (n : Nat) (s : State) :
    ScanAgrees (complete cmd e n s) :=
  scanAgrees_of_phase (.inl rfl)

theorem SameButHostSide.scanAgrees {s t : State} (h : SameButHostSide s t) (hs : ScanAgrees s) : ScanAgrees t := by
  have hscan : ∀ off, ScanAt t off → ScanAt s off := fun _ => (ScanAt.congr h).2
  have hfrom : ∀ off acc k n, decodeVarintFrom t off acc k n = decodeVarintFrom s off acc k n := fun off acc k n =>
    decodeVarintFrom_congr (by rw [h]) (by rw [h]) (by rw [h]) off n acc k
  unfold ScanAgrees decodeVarint at *
  simp only [hfrom]
  rw [h] at hscan ⊢
  exact ⟨fun hp off g => hs.1 hp off (hscan off g), hs.2⟩

theorem SameButHostSide.sliceCurrent {s t : State} (h : SameButHostSide s t) (hs : SliceCurrent s) :
    SliceCurrent t := by
  rw [h]
  exact hs.congr rfl rfl rfl ⟨rfl, rfl, rfl, rfl⟩ id

/-- At the start of a scan the scan registers agree with the function (R70, R97). -/
theorem startScan_agrees {s : State} {m : Mode} {off : Nat} (g : ScanAt (startScan m off s) off) :
    ScanAgrees (startScan m off s) := by
  refine ⟨fun _ off' g' => ?_, nofun⟩
  obtain rfl := g.off_unique g'
  have hstart := decodeVarint_start m off s g.off_le
  exact (decodeVarint_congr (s := startScan m off s) (t := s) rfl rfl rfl off).trans hstart

/-- One round of the function takes the byte the `SCAN` step takes (R70, R78). -/
theorem decodeVarintFrom_consumeByte {s : State} {off : Nat} {b : Byte} (g : ScanAt s off)
    (hl : s.ptr.toNat < s.len.toNat) (hb : readByte s s.ptr.toNat = .ok b)
    (hc : contribution b s.shift.toNat < 2 ^ s.params.W) :
    decodeVarintFrom s off s.acc.toNat s.cnt.toNat (s.len.toNat - s.ptr.toNat + 1) =
      if continues b then
        decodeVarintFrom (consumeByte b s) off (consumeByte b s).acc.toNat (consumeByte b s).cnt.toNat
          ((consumeByte b s).len.toNat - (consumeByte b s).ptr.toNat + 1)
      else .ok (.ok (consumeByte b s).acc.toNat (consumeByte b s).cnt.toNat) := by
  obtain ⟨-, hcnt, hptr, hacc⟩ := consume_facts (b := b) ⟨g.ptr_eq, g.shift_eq⟩ hl hc
  have hfit : ¬ 2 ^ s.params.W ≤ contribution b (7 * s.cnt.toNat) := by
    rw [← (contribution_saturate b _ _).1, ← g.shift_eq]
    omega
  have hround : s.len.toNat - s.ptr.toNat = s.len.toNat - (s.ptr.toNat + 1) + 1 := by omega
  have hin : ¬ s.len.toNat ≤ s.ptr.toNat := by omega
  rw [hcnt, hptr, hacc, decodeVarintFrom_congr (s := consumeByte b s) (t := s) rfl rfl rfl, consumeByte_len, hround,
    decodeVarintFrom]
  simp only [← g.ptr_eq, hb, if_neg hin, if_neg hfit]

/-- The function on an input long enough, from the parse of its first field and its 68 bytes (R82). -/
theorem sliceAddress_eq_cutSlices {s : State} {v p : Nat} {bs : List Byte} (hd : decodeVarint s 0 = .ok (.ok v p))
    (hl : p + 68 ≤ s.len.toNat) (hb : readBytes s p 68 = .ok bs) :
    sliceAddress s = .ok (.ok (cutSlices v p bs)) := by
  have hreq : ¬ s.len.toNat < requiredLength p := Nat.not_lt.2 hl
  simp only [sliceAddress, hd, hreq, if_false, hb]

/-- The slices latched by a completing `SLICE` are those of `BUF` and `LEN` (R82, R88). -/
theorem latchSlices_sliceCurrent {s : State} {v p : Nat} {bs : List Byte} (hd : decodeVarint s 0 = .ok (.ok v p))
    (hl : p + 68 ≤ s.len.toNat) (hb : readBytes s p 68 = .ok bs) : SliceCurrent (latchSlices (cutSlices v p bs) s) := by
  intro _
  have hlen : (BitVec.ofNat 17 (p + 64)).toNat = p + 64 := by
    have := s.len.isLt
    simp only [BitVec.toNat_ofNat]
    omega
  have hslice := (sliceAddress_congr (s := latchSlices (cutSlices v p bs) s) (t := s) rfl rfl rfl).trans
    (sliceAddress_eq_cutSlices hd hl hb)
  exact ⟨cutSlices v p bs, hslice, hlen, rfl, rfl, rfl⟩

/-- The DecodeStep keeps the meaning of `SVALID`: no command but `SLICE` sets it, and `CLEAR` clears it (R97, R100). -/
theorem SliceCurrent.exec {s t : State} {i : Instr} (h : SliceCurrent s) (he : exec i s = .next t) :
    SliceCurrent t := by
  cases i with
  | nop => cases he; exact h.complete
  | varint off => cases he; exact h.congr rfl rfl rfl ⟨rfl, rfl, rfl, rfl⟩ id
  | slice => cases he; exact h.congr rfl rfl rfl ⟨rfl, rfl, rfl, rfl⟩ id
  | clear => cases he; exact nofun
  | chkcmp =>
    obtain ⟨c, _, _, rfl, _⟩ := execChkcmp_next he
    exact SliceCurrent.complete (h.congr (t := { s with cmatch := c }) rfl rfl rfl ⟨rfl, rfl, rfl, rfl⟩ id)

/-- After the DecodeStep of the latched command the scan registers agree with the function: it starts the scan or ends
(R97). -/
theorem scanAgrees_exec {s t : State} {i : Instr} (hd : decode s.lcmd = .ok i) (he : exec i s = .next t) :
    ScanAgrees t := by
  have hcmd := latched_of_decode hd
  cases i with
  | nop => cases he; exact scanAgrees_complete ..
  | varint off => cases he; exact startScan_agrees (startScan_scanAt (decode_varint_le hd) (.inl ⟨rfl, hcmd⟩))
  | slice => cases he; exact startScan_agrees (startScan_scanAt (by omega) (.inr ⟨rfl, rfl, hcmd⟩))
  | clear => cases he; exact scanAgrees_complete ..
  | chkcmp => obtain ⟨_, _, _, rfl, _⟩ := execChkcmp_next he; exact scanAgrees_complete ..

/-- A `SCAN` step keeps both: it writes no slice register, and takes the byte the function takes (R78). -/
theorem scanStep_keeps_agreement {s t : State} (hi : BlockInv s) (ha : ScanAgrees s) (hs : SliceCurrent s)
    (hp : s.phase = .scan) (he : scanStep s = .next t) : ScanAgrees t ∧ SliceCurrent t := by
  obtain ⟨off, g⟩ := hi.scanning hp
  have hrest := ha.1 hp off g
  have hfun : ∀ b p off, decodeVarint { consumeByte b s with phase := p } off = decodeVarint s off := fun b p =>
    decodeVarint_congr (s := { consumeByte b s with phase := p }) rfl rfl rfl
  have hconsumed : ∀ b, SliceCurrent (consumeByte b s) := fun b => hs.congr rfl rfl rfl ⟨rfl, rfl, rfl, rfl⟩ id
  rcases scanStep_next he with ⟨_, rfl⟩ | ⟨b, hl, hb, ⟨_, rfl⟩ | ⟨hc, hmore, rfl⟩ | ⟨hc, hlast, rfl⟩⟩
  · exact ⟨scanAgrees_complete .., hs.complete⟩
  · exact ⟨scanAgrees_complete .., hs.complete⟩
  · refine ⟨⟨fun _ off' g' => ?_, fun hp' => by cases hp.symm.trans hp'⟩, hconsumed b⟩
    obtain rfl := (g.consumeByte hi.acc_lt hl hc).1.off_unique g'
    refine (hfun b s.phase off).trans ?_
    rw [hrest, decodeVarintFrom_consumeByte g hl hb hc, if_pos hmore]
  · rcases finishScan_cases (consumeByte b s) with ⟨_, hf⟩ | ⟨hm, hf⟩ <;> rw [hf]
    · exact ⟨scanAgrees_complete ..,
        SliceCurrent.complete ((hconsumed b).congr rfl rfl rfl ⟨rfl, rfl, rfl, rfl⟩ id)⟩
    · refine ⟨⟨nofun, fun _ => ?_⟩, (hconsumed b).congr rfl rfl rfl ⟨rfl, rfl, rfl, rfl⟩ id⟩
      obtain rfl := g.off_eq_zero hm
      refine (hfun b .check 0).trans ?_
      rw [hrest, decodeVarintFrom_consumeByte g hl hb hc, if_neg (by simp [hlast])]

/-- A `CHECK` step keeps the meaning of `SVALID`: it fails, or latches the slices of the parse that `ACC` and `CNT` hold
(R88). -/
theorem checkStep_sliceCurrent {s t : State} (ha : ScanAgrees s) (hs : SliceCurrent s) (hp : s.phase = .check)
    (he : checkStep s = .next t) : SliceCurrent t := by
  rcases checkStep_next he with ⟨_, rfl⟩ | ⟨bs, hl, hb, rfl⟩
  · exact hs.complete
  · exact (latchSlices_sliceCurrent (ha.2 hp) hl hb).complete

/-- An engine step keeps both (R96). -/
theorem engineStep_keeps_agreement {s t : State} (hi : BlockInv s) (ha : ScanAgrees s) (hs : SliceCurrent s)
    (he : engineStep s = .next t) : ScanAgrees t ∧ SliceCurrent t := by
  rcases engineStep_next he with ⟨_, rfl⟩ | ⟨_, i, hd, g⟩ | ⟨_, _, rfl⟩ | ⟨hp, g⟩ | ⟨hp, g⟩
  · exact ⟨ha, hs⟩
  · exact ⟨scanAgrees_exec hd g, hs.exec g⟩
  · exact ⟨scanAgrees_complete .., hs.complete⟩
  · exact scanStep_keeps_agreement hi ha hs hp g
  · refine ⟨?_, checkStep_sliceCurrent ha hs hp g⟩
    rcases checkStep_next g with ⟨_, rfl⟩ | ⟨_, _, _, rfl⟩ <;> exact scanAgrees_complete ..

/-- A taken write of an idle block keeps both: one that changes the input clears `SVALID` (R93, R95). -/
theorem inputWrite_keeps_agreement {s t : State} (hs : SliceCurrent s) (hp : s.phase = .idle) (hw : InputWrite s t) :
    ScanAgrees t ∧ SliceCurrent t := by
  cases hw with
  | cmd c => exact ⟨scanAgrees_of_phase (.inr rfl), hs.congr rfl rfl rfl ⟨rfl, rfl, rfl, rfl⟩ id⟩
  | len d _ => exact ⟨scanAgrees_of_phase (.inl hp), nofun⟩
  | digest d => exact ⟨scanAgrees_of_phase (.inl hp), hs.congr rfl rfl rfl ⟨rfl, rfl, rfl, rfl⟩ id⟩
  | window k d _ => exact ⟨scanAgrees_of_phase (.inl hp), nofun⟩

/-- After reset both hold: nothing is scanned, and `SVALID` is clear (R41, R117). -/
theorem resetBlock_agrees (s : State) : ScanAgrees (resetBlock s) ∧ SliceCurrent (resetBlock s) :=
  ⟨scanAgrees_of_phase (.inl rfl), nofun⟩

/-- Settles O56: with the invariant of the block, each kind of step keeps the agreement. -/
theorem stepKeepsSliceCurrent : Obligations.StepKeepsSliceCurrent := fun _ _ hi ha hs h =>
  (step_keeps (P := fun s => BlockInv s ∧ ScanAgrees s ∧ SliceCurrent s)
    (fun g ⟨hi, ha, hs⟩ => ⟨g.blockInv hi, g.scanAgrees ha, g.sliceCurrent hs⟩)
    (fun hp hw ⟨hi, _, hs⟩ => ⟨hi.inputWrite hp hw, inputWrite_keeps_agreement hs hp hw⟩)
    (fun he ⟨hi, ha, hs⟩ => ⟨hi.engineStep he, engineStep_keeps_agreement hi ha hs he⟩)
    (fun _ => ⟨resetBlock_blockInv _, resetBlock_agrees _⟩) ⟨hi, ha, hs⟩ h).2

/-- Settles O57: reset is `RST` on the reset state. -/
theorem resetMeetsSliceCurrent : Obligations.ResetMeetsSliceCurrent := resetBlock_agrees State.reset

/-! ## `STATUS`, the hardwired registers, `CTRL`, `IRQ` and reset -/

/-- Settles O34: the layout is that of `status_bits`, and `BUSY` is `PHASE ≠ IDLE`. -/
theorem statusWordLayout : Obligations.StatusWordLayout := by
  intro s
  obtain ⟨hbusy, hdone, hdrop, hvvalid, hsvalid, hcmatch, hzero, herr⟩ :=
    status_bits s.err.code s.cmatch s.svalid s.vvalid s.drop s.done s.busy
  have hreserved : ∀ j, j = 6 ∨ j = 7 ∨ 12 ≤ j → (statusWord s).getLsbD j = false := fun j hj =>
    if hlt : j < 32 then hzero j hlt hj else BitVec.getLsbD_of_ge _ _ (by omega)
  refine ⟨by rw [← busy_eq_true, ← hbusy]; rfl, hdone, hdrop, hvvalid, hsvalid, hcmatch, hreserved, ?_⟩
  refine (congrArg BitVec.toNat herr).trans ?_
  cases s.err <;> rfl

/-- `ID` reads its hardwired word in every state (R20). -/
theorem busRead_id (s : State) : busRead 0x000 s = (.read .ok idWord, s) := rfl

/-- `PARAM` reads W and N (R21). -/
theorem busRead_param (s : State) : busRead 0x004 s = (.read .ok (paramWord s.params), s) := rfl

/-- `CTRL` reads `IE` (R22). -/
theorem busRead_ctrl (s : State) : busRead 0x008 s = (.read .ok (ctrlWord s), s) := rfl

/-- A write of `CTRL` is taken whether or not a command runs (R22). -/
theorem busWrite_ctrl (d : Word) (s : State) : busWrite 0x008 d s = (.write .ok, { s with ie := d.getLsbD 0 }) := by
  have hd : (s.busy && Reg.droppable .ctrl) = false := Bool.and_false _
  simp only [busWrite, target_ctrl, hd]
  rfl

/-- A write of `CMD` to an idle block is accepted (R93). -/
theorem busWrite_cmd_idle {s : State} (hp : s.phase = .idle) (c : Word) :
    busWrite 0x010 c s = (.write .ok, accept c s) := by
  simp only [busWrite, target_cmd, not_busy hp]
  rfl

/-- No step changes W or N (R6, R7). -/
theorem step_params {s t : State} (h : step s = .next t) : t.params = s.params :=
  step_keeps (P := fun u => u.params = s.params) (fun {u v} hv hu => by rw [hv]; exact hu)
    (fun _ hw hu => by cases hw <;> exact hu) (fun he hu => (engineStep_frame he).1.trans hu) id rfl h

/-- The fields of `PARAM` (R21). -/
theorem paramWord_fields (p : Params) : ((paramWord p).extractLsb' 0 7).toNat = p.W ∧ (paramWord p).getLsbD 7 = false ∧
    ((paramWord p).extractLsb' 8 17).toNat = p.N ∧ (paramWord p).extractLsb' 25 7 = 0 := by
  have hval := paramWord_toNat p
  have hW := W_le p
  have hN := N_le p
  refine ⟨?_, ?_, ?_, BitVec.eq_of_toNat_eq ?_⟩
  · rw [BitVec.extractLsb'_toNat, hval, Nat.shiftRight_eq_div_pow]; omega
  · rw [BitVec.getLsbD, hval, Nat.testBit_eq_decide_div_mod_eq, decide_eq_false_iff_not]; omega
  · rw [BitVec.extractLsb'_toNat, hval, Nat.shiftRight_eq_div_pow]; omega
  · rw [BitVec.extractLsb'_toNat, hval, Nat.shiftRight_eq_div_pow]; simp; omega

/-- Settles O35: W and N are never written, and `ID` and `PARAM` are read-only functions of them. -/
theorem hardwiredRegistersNeverChange : Obligations.HardwiredRegistersNeverChange := by
  refine ⟨fun s t h => ⟨rfl, ?_⟩, fun s => ⟨paramWord s.params, rfl, ?_⟩, fun _ _ => ⟨rfl, rfl⟩, by decide⟩
  · rw [busRead_param, busRead_param, step_params h]
  · obtain ⟨hwidth, hbit, hsize, htop⟩ := paramWord_fields s.params
    have hmul : 4 ≤ s.params.N ∧ s.params.N % 4 = 0 := by simp only [Params.N]; omega
    exact ⟨hwidth, hbit, hsize, htop, W_pos _, W_le _, hmul.1, N_le _, hmul.2⟩

/-- `CTRL` reads bit 0 of the word last written to it (R22). -/
theorem ctrlWord_of_ie {s : State} {d : Word} (h : s.ie = d.getLsbD 0) : ctrlWord s = d &&& 1 := by
  rw [ctrlWord, h]
  apply BitVec.eq_of_toNat_eq
  rw [toNat_append_mul, BitVec.toNat_ofBool, BitVec.getLsbD, Nat.toNat_testBit]
  simp [Nat.and_one_is_mod]

/-- Settles O36: the write is taken, busy or not, and only `IE` changes. -/
theorem ctrlWriteIsNeverDropped : Obligations.CtrlWriteIsNeverDropped := fun s d =>
  ⟨_, busWrite_ctrl d s, rfl, by rw [busRead_ctrl, ctrlWord_of_ie rfl], by decide⟩

/-- An engine step that ends a command sets `DONE` (R98). -/
theorem engineStep_ends_done {s t : State} (hp : s.phase ≠ .idle) (h : engineStep s = .next t) (ht : t.phase = .idle) :
    t.done = true := by
  rcases engineStep_next h with ⟨hi, _⟩ | ⟨_, i, _, he⟩ | ⟨_, _, rfl⟩ | ⟨hs, he⟩ | ⟨_, he⟩
  · exact absurd hi hp
  · cases i with
    | nop => cases he; rfl
    | varint off => cases he; cases ht
    | slice => cases he; cases ht
    | clear => cases he; rfl
    | chkcmp => obtain ⟨_, _, _, rfl, _⟩ := execChkcmp_next he; rfl
  · rfl
  · rcases scanStep_next he with ⟨_, rfl⟩ | ⟨b, _, _, ⟨_, rfl⟩ | ⟨_, _, rfl⟩ | ⟨_, _, rfl⟩⟩
    · rfl
    · rfl
    · cases hs.symm.trans ht
    · rcases finishScan_cases (consumeByte b s) with ⟨_, g⟩ | ⟨_, g⟩ <;> rw [g] at ht ⊢
      · rfl
      · cases ht
  · rcases checkStep_next he with ⟨_, rfl⟩ | ⟨_, _, _, rfl⟩ <;> rfl

/-- Settles O43: `IRQ` follows `IE` and `DONE`, and each event changes one of them. -/
theorem irqIsLevel : Obligations.IrqIsLevel := by
  refine ⟨fun s => Bool.and_eq_true_iff, fun s t hp h ht => ?_, fun s c hp => ?_, fun s => ?_, rfl⟩
  · have hdone := engineStep_ends_done hp h ht
    obtain ⟨-, -, hie, -⟩ := engineStep_frame h
    exact ⟨hdone, by rw [irq, hdone, hie, Bool.and_true]⟩
  · rw [busWrite_cmd_idle hp, irq, accept_done, Bool.and_false]
  · rw [busWrite_ctrl, busWrite_ctrl]
    exact ⟨rfl, rfl⟩

/-- Settles O44: each value is the reset state's field, or what a bus read or `STATUS` computes from those fields. -/
theorem resetValues : Obligations.ResetValues := by
  have hparam : (busRead 0x004 State.reset).1 = .read .ok 0x00010040 := by decide
  refine ⟨fun _ => rfl, rfl, hparam, rfl, by decide, rfl, rfl, rfl, rfl, rfl, rfl, rfl, rfl, by decide, rfl, rfl, rfl,
    rfl, rfl, rfl, rfl, rfl⟩

/-! ## The engine reads nothing from `LEN` on -/

/-- The state with another buffer. -/
def State.withBuf (s : State) (m : Memory) : State := { s with buf := m }

/-- A step's answer with another buffer in the next state. -/
def answerWithBuf (m : Memory) : Host.Outcome State Fault Refusal → Host.Outcome State Fault Refusal
  | .next t => .next (t.withBuf m)
  | .fault f => .fault f
  | .refused r => .refused r

section otherBuffer
variable {s : State} {m : Memory}

/-- No DecodeStep reads or writes the buffer (R58, R97). -/
theorem exec_withBuf (i : Instr) : exec i (s.withBuf m) = answerWithBuf m (exec i s) := by
  cases i with
  | chkcmp =>
    show execChkcmp (s.withBuf m) = answerWithBuf m (execChkcmp s)
    simp only [execChkcmp, apply_ite (answerWithBuf m)]
    rfl
  | _ => rfl

/-- The end of a scan neither reads nor writes the buffer (R78). -/
theorem finishScan_withBuf : finishScan (s.withBuf m) = (finishScan s).withBuf m := by
  have hmode : (s.withBuf m).mode = s.mode := rfl
  simp only [finishScan, hmode]
  cases s.mode <;> rfl

@[simp] theorem withBuf_params : (s.withBuf m).params = s.params := rfl
@[simp] theorem withBuf_len : (s.withBuf m).len = s.len := rfl
@[simp] theorem withBuf_ptr : (s.withBuf m).ptr = s.ptr := rfl
@[simp] theorem withBuf_shift : (s.withBuf m).shift = s.shift := rfl
@[simp] theorem withBuf_cnt : (s.withBuf m).cnt = s.cnt := rfl

variable (h : ∀ i, i < s.len.toNat → m.read i = s.buf.read i)
include h

/-- A `SCAN` step reads one byte, below `LEN` (R78). -/
theorem scanStep_withBuf : scanStep (s.withBuf m) = answerWithBuf m (scanStep s) := by
  by_cases hl : s.len.toNat ≤ s.ptr.toNat
  · simp only [scanStep, withBuf_len, withBuf_ptr, hl, if_true]
    rfl
  · have hread : readByte (s.withBuf m) s.ptr.toNat = readByte s s.ptr.toNat := readByte_congr rfl (h _ (by omega))
    simp only [scanStep, withBuf_len, withBuf_ptr, withBuf_params, withBuf_shift, hl, if_false, hread]
    cases readByte s s.ptr.toNat with
    | error f => rfl
    | ok b =>
      have hend : answerWithBuf m (.next (finishScan (consumeByte b s))) =
          .next (finishScan (consumeByte b (s.withBuf m))) := congrArg Host.Outcome.next finishScan_withBuf.symm
      simp only [apply_ite (answerWithBuf m), hend]
      rfl

/-- A `CHECK` step reads 68 bytes, below `LEN` (R88). -/
theorem checkStep_withBuf : checkStep (s.withBuf m) = answerWithBuf m (checkStep s) := by
  by_cases hl : s.len.toNat < requiredLength s.cnt.toNat
  · simp only [checkStep, withBuf_len, withBuf_cnt, hl, if_true]
    rfl
  · have hread : readBytes (s.withBuf m) s.cnt.toNat 68 = readBytes s s.cnt.toNat 68 :=
      readBytes_congr rfl fun j hj => h _ (by
        have hreq : requiredLength s.cnt.toNat = s.cnt.toNat + 68 := rfl
        omega)
    simp only [checkStep, withBuf_len, withBuf_cnt, hl, if_false, hread]
    cases readBytes s s.cnt.toNat 68 <;> rfl

/-- An engine step reads bytes below `LEN` alone and writes none (R18, R58). -/
theorem engineStep_withBuf : engineStep (s.withBuf m) = answerWithBuf m (engineStep s) := by
  have hphase : (s.withBuf m).phase = s.phase := rfl
  have hlcmd : (s.withBuf m).lcmd = s.lcmd := rfl
  simp only [engineStep, hphase, hlcmd]
  cases s.phase with
  | idle => rfl
  | decode =>
    cases decode s.lcmd with
    | ok i => exact exec_withBuf i
    | error e => rfl
  | scan => exact scanStep_withBuf h
  | check => exact checkStep_withBuf h

end otherBuffer

/-- Settles O53: the engine step with another buffer, phase by phase. -/
theorem bytesFromLenAreNeverRead : Obligations.BytesFromLenAreNeverRead := by
  intro s m h
  refine (engineStep_withBuf h).trans ?_
  cases engineStep s <;> rfl

end Sys2Proof.Machine

namespace Sys2Proof.Machine

/-! # Proofs of the family "memory": the host's transactions, and what they leave to the engine

The frozen laws of the register map say which register an offset reaches and when a write is refused; a transaction's
answer follows. While a command runs a host move changes the host's side alone (`hostStep_busy`), which no engine step
reads. -/

/-! ## The engine does not read the host's side -/

/-- The state with the fields a host move can change while a command runs taken from another state. -/
def State.withHostSide (s t : State) : State :=
  { s with ie := t.ie, drop := t.drop, script := t.script, turns := t.turns, responses := t.responses, draws := t.draws }

/-- `withHostSide` is the form of `SameButHostSide`. -/
theorem sameButHostSide_iff {s t : State} : SameButHostSide s t ↔ t = s.withHostSide t := Iff.rfl

/-- Two answers of the engine that agree but for the host's side. -/
inductive SameAnswer : Host.Outcome State Fault Refusal → Host.Outcome State Fault Refusal → Prop
  | next {t u : State} (h : SameButHostSide t u) : SameAnswer (.next t) (.next u)
  | fault (f : Fault) : SameAnswer (.fault f) (.fault f)

/-- Where one side answers a next state, so does the other. -/
theorem SameAnswer.exists_next {t : State} {o : Host.Outcome State Fault Refusal} (h : SameAnswer (.next t) o) :
    ∃ u, o = .next u ∧ SameButHostSide t u := by
  cases h with
  | next h => exact ⟨_, rfl, h⟩

/-- A branch on a condition that both sides share. -/
theorem SameAnswer.ite {c : Prop} [Decidable c] {o₁ o₂ p₁ p₂ : Host.Outcome State Fault Refusal}
    (h₁ : SameAnswer o₁ p₁) (h₂ : SameAnswer o₂ p₂) : SameAnswer (if c then o₁ else o₂) (if c then p₁ else p₂) := by
  by_cases hc : c
  · rwa [if_pos hc, if_pos hc]
  · rwa [if_neg hc, if_neg hc]

section hostSide
variable (s t : State)

@[simp] theorem withHostSide_params : (s.withHostSide t).params = s.params := rfl
@[simp] theorem withHostSide_svalid : (s.withHostSide t).svalid = s.svalid := rfl
@[simp] theorem withHostSide_len : (s.withHostSide t).len = s.len := rfl
@[simp] theorem withHostSide_chk : (s.withHostSide t).chk = s.chk := rfl
@[simp] theorem withHostSide_digest : (s.withHostSide t).digest = s.digest := rfl
@[simp] theorem withHostSide_lcmd : (s.withHostSide t).lcmd = s.lcmd := rfl
@[simp] theorem withHostSide_phase : (s.withHostSide t).phase = s.phase := rfl
@[simp] theorem withHostSide_mode : (s.withHostSide t).mode = s.mode := rfl
@[simp] theorem withHostSide_ptr : (s.withHostSide t).ptr = s.ptr := rfl
@[simp] theorem withHostSide_shift : (s.withHostSide t).shift = s.shift := rfl
@[simp] theorem withHostSide_cnt : (s.withHostSide t).cnt = s.cnt := rfl

/-- A DecodeStep does not read the host's side; `CLEAR` sets `DROP` whatever it was (R97, R100). -/
theorem exec_withHostSide (i : Instr) : SameAnswer (exec i s) (exec i (s.withHostSide t)) := by
  cases i with
  | chkcmp =>
    simp only [exec, execChkcmp, withHostSide_svalid, withHostSide_chk, withHostSide_digest]
    exact .ite (.next rfl) (.ite (.next rfl) (.next rfl))
  | _ => exact .next rfl

/-- The end of a scan does not read the host's side (R78). -/
theorem finishScan_withHostSide : SameButHostSide (finishScan s) (finishScan (s.withHostSide t)) := by
  simp only [finishScan, withHostSide_mode]
  cases s.mode <;> rfl

/-- A `SCAN` step does not read the host's side (R78). -/
theorem scanStep_withHostSide : SameAnswer (scanStep s) (scanStep (s.withHostSide t)) := by
  have hread : readByte (s.withHostSide t) s.ptr.toNat = readByte s s.ptr.toNat := readByte_congr rfl rfl
  simp only [scanStep, withHostSide_len, withHostSide_ptr, withHostSide_params, withHostSide_shift, hread]
  refine .ite (.next rfl) ?_
  cases readByte s s.ptr.toNat with
  | error f => exact .fault f
  | ok b => exact .ite (.next rfl) (.ite (.next rfl) (.next (finishScan_withHostSide (consumeByte b s) t)))

/-- A `CHECK` step does not read the host's side (R88). -/
theorem checkStep_withHostSide : SameAnswer (checkStep s) (checkStep (s.withHostSide t)) := by
  have hread : readBytes (s.withHostSide t) s.cnt.toNat 68 = readBytes s s.cnt.toNat 68 :=
    readBytes_congr rfl fun _ _ => rfl
  simp only [checkStep, withHostSide_len, withHostSide_cnt, hread]
  refine .ite (.next rfl) ?_
  cases readBytes s s.cnt.toNat 68 with
  | error f => exact .fault f
  | ok bs => exact .next rfl

/-- An engine step does not read the host's side (R53, R96). -/
theorem engineStep_withHostSide : SameAnswer (engineStep s) (engineStep (s.withHostSide t)) := by
  simp only [engineStep, withHostSide_phase, withHostSide_lcmd]
  cases s.phase with
  | idle => exact .next rfl
  | decode =>
    cases decode s.lcmd with
    | ok i => exact exec_withHostSide s t i
    | error e => exact .next rfl
  | scan => exact scanStep_withHostSide s t
  | check => exact checkStep_withHostSide s t

end hostSide

/-- Settles O52: the host's move changes its own side, which the engine's step does not read. -/
theorem hostMovesDoNotDisturbTheEngine : Obligations.HostMovesDoNotDisturbTheEngine := by
  intro s t hp h
  have hside : SameButHostSide s (hostStep s) := hostStep_busy (is_busy hp)
  have hsame := engineStep_withHostSide s (hostStep s)
  rw [h, ← sameButHostSide_iff.1 hside] at hsame
  exact ⟨hside, hsame.exists_next⟩

/-- What the engine works on is no part of the host's side. -/
theorem SameButHostSide.inputs {s t : State} (h : SameButHostSide s t) :
    t.buf = s.buf ∧ t.len = s.len ∧ t.digest = s.digest ∧ t.lcmd = s.lcmd := by
  rw [sameButHostSide_iff.1 h]
  exact ⟨rfl, rfl, rfl, rfl⟩

/-- An engine step changes nothing it works on (R17, R58). -/
theorem engineStep_inputs {s t : State} (h : engineStep s = .next t) :
    t.buf = s.buf ∧ t.len = s.len ∧ t.digest = s.digest ∧ t.lcmd = s.lcmd := by
  obtain ⟨-, hbuf, -, hlen, hdigest, hlcmd, -⟩ := engineStep_frame h
  exact ⟨hbuf, hlen, hdigest, hlcmd⟩

/-- Settles O46: a step that is no `RST` is an engine step or a move of the busy block's host. -/
theorem inputsAreFrozenWhileBusy : Obligations.InputsAreFrozenWhileBusy := by
  intro s t hp h hrst
  have hb : s.busy = true := is_busy hp
  rcases step_next h with ⟨rest, _, rfl⟩ | ⟨rest, _, he⟩ | ⟨rest, hr, _⟩ | ⟨_, _, he⟩ | ⟨_, hidle, _⟩
  · exact (hostStep_busy (s := { s with turns := rest }) hb).inputs
  · exact engineStep_inputs (s := { s with turns := rest }) he
  · exact absurd hr (hrst rest)
  · exact engineStep_inputs he
  · simp [hb] at hidle

/-! ## What a transaction answers -/

section transaction
variable {s : State} {a : Nat} {d : Word} {r : Reg}

/-- Checks 1 and 2 of R47 for a read. -/
theorem busRead_none (h : target s.params.N a = none) : busRead a s = (.read .slverr 0, s) := by
  simp only [busRead, h]

/-- A read that reaches a register (R44). -/
theorem busRead_some (h : target s.params.N a = some r) : busRead a s = (.read .ok (readReg r s), afterRead r s) := by
  simp only [busRead, h]

/-- Checks 1 and 2 of R47 for a write. -/
theorem busWrite_none (h : target s.params.N a = none) : busWrite a d s = (.write .slverr, s) := by
  simp only [busWrite, h]

/-- Checks 3 and 4 of R47. -/
theorem busWrite_refused (h : target s.params.N a = some r) (hr : writeRefused r d s = true) :
    busWrite a d s = (.write .slverr, s) := by
  simp only [busWrite, h, hr, if_true]

/-- A write that passes the checks of R47 is answered `OK`, dropped or not (R94). -/
theorem busWrite_answer (h : target s.params.N a = some r) (hr : writeRefused r d s = false) :
    (busWrite a d s).1 = .write .ok := by
  simp only [busWrite, h, hr]
  cases s.busy && r.droppable <;> rfl

/-- A write that passes the checks of R47 takes effect in the idle block. -/
theorem busWrite_taken (h : target s.params.N a = some r) (hr : writeRefused r d s = false) (hp : s.phase = .idle) :
    busWrite a d s = (.write .ok, applyWrite r d s) := by
  simp only [busWrite, h, hr, not_busy hp]
  rfl

/-- Checks 3 and 4 of R47 by offset. -/
theorem writeRefused_iff (h : target s.params.N a = some r) :
    writeRefused r d s = true ↔ a ∈ [0x000, 0x004, 0x00C, 0x018, 0x01C, 0x020, 0x024, 0x028, 0x02C] ∨
      (0x040 ≤ a ∧ a < 0x080) ∨ (a = 0x014 ∧ s.params.N < d.toNat) := by
  obtain ⟨hro, hlen⟩ := target_ro h
  rw [writeRefused, Bool.or_eq_true, Bool.and_eq_true, beq_iff_eq, decide_eq_true_iff, hro, hlen, or_assoc]

end transaction

/-- Settles O32: the listed cases are the offsets without a register (`target_none_iff`) and the refused writes
(`writeRefused_iff`). -/
theorem slverrExactlyAsListed : Obligations.SlverrExactlyAsListed := by
  intro s a d bad badWrite
  have hbad : target s.params.N a = none ↔ bad := target_none_iff s.params.N a
  cases ht : target s.params.N a with
  | none =>
    have hb : bad := hbad.1 ht
    exact ⟨fun _ => busRead_none ht, absurd hb, fun _ => busWrite_none ht, fun h => absurd (.inl hb) h⟩
  | some r =>
    have hb : ¬ bad := fun h => by simp [hbad.2 h] at ht
    have hw : badWrite ↔ writeRefused r d s = true := (or_iff_right hb).trans (writeRefused_iff ht).symm
    exact ⟨fun h => absurd h hb, fun _ => ⟨_, by rw [busRead_some ht]⟩, fun h => busWrite_refused ht (hw.1 h),
      fun h => busWrite_answer ht (Bool.eq_false_iff.2 (mt hw.2 h))⟩

/-! ## Reads -/

/-- Only a read of a window word with an unwritten byte takes draws (R118). -/
theorem bufWord_of_draws_afterRead {r : Reg} {s : State} (h : (afterRead r s).draws ≠ s.draws) :
    ∃ k, r = .bufWord k ∧ wordHasUnwritten s (4 * k) = true := by
  cases r with
  | bufWord k =>
    refine ⟨k, rfl, by_contra fun hw => h ?_⟩
    simp only [afterRead, afterHostWord, hw]
    rfl
  | _ => exact absurd rfl h

/-- A word with an unwritten byte has an unwritten lane (R49, R118). -/
theorem exists_unwritten_lane {s : State} {i : Nat} (h : wordHasUnwritten s i = true) :
    ∃ j, j < 4 ∧ s.buf.read (i + j) = none := by
  simp only [wordHasUnwritten, Bool.or_eq_true, Option.isNone_iff_eq_none] at h
  rcases h with ((h | h) | h) | h
  · exact ⟨0, by omega, h⟩
  · exact ⟨1, by omega, h⟩
  · exact ⟨2, by omega, h⟩
  · exact ⟨3, by omega, h⟩

/-- Settles O42: a read changes at most the count of draws, and that at a window word with an unwritten lane. -/
theorem readsHaveNoSideEffect : Obligations.ReadsHaveNoSideEffect := by
  refine fun s a => ⟨busRead_state a s, fun h => ?_⟩
  cases ht : target s.params.N a with
  | none => exact absurd (by rw [busRead_none ht]) h
  | some r =>
    rw [busRead_some ht] at h
    obtain ⟨k, rfl, hw⟩ := bufWord_of_draws_afterRead h
    obtain ⟨j, hj, hnone⟩ := exists_unwritten_lane hw
    obtain ⟨ha, hk⟩ := target_bufWord ht
    exact ⟨k, j, ha, hj, by omega, hnone⟩

/-- Settles O41: the read of a written window word, its lanes in order. -/
theorem bufferWindowReads : Obligations.BufferWindowReads := fun _ _ _ hk hb =>
  busRead_window_written hk (hb 0) (hb 1) (hb 2) (hb 3)

/-- `STATUS` reads its word, and the read changes nothing (R23, R52). -/
theorem busRead_status (s : State) : busRead 0x00C s = (.read .ok (statusWord s), s) := rfl

/-- `CTRL` reads 1 or 0 (R22). -/
theorem ctrlWord_eq_ite (s : State) : ctrlWord s = if s.ie then 1 else 0 := by
  unfold ctrlWord
  cases s.ie <;> rfl

/-- The two halves of `VALUE` (R25, R51). -/
theorem toNat_eq_valueLo_add_valueHi (v : Wide) : v.toNat = (valueLo v).toNat + 2 ^ 32 * (valueHi v).toNat := by
  have := v.isLt
  simp only [valueLo, valueHi, BitVec.extractLsb'_toNat, Nat.shiftRight_eq_div_pow]
  omega

/-- Settles O33: each offset reaches its register by the map, and the words are those of the register's rule. -/
theorem registersReadAtTheirOffsets : Obligations.RegistersReadAtTheirOffsets := by
  intro s
  refine ⟨busRead_id s, ⟨_, busRead_param s, paramWord_toNat _⟩, ?ctrl, busRead_status s, rfl, ?len,
    ⟨_, _, rfl, rfl, toNat_eq_valueLo_add_valueHi _⟩, ?consumed, rfl, ?bodyLen, rfl, rfl, fun i => ?spend, fun i => ?view⟩
  case ctrl => rw [busRead_ctrl, ctrlWord_eq_ite]
  case len => rw [← indexWord_eq]; rfl
  case consumed => rw [← indexWord_eq]; rfl
  case bodyLen => rw [← indexWord_eq]; rfl
  case spend => rw [busRead_some (target_spend _ i)]; rfl
  case view => rw [busRead_some (target_view _ i)]; rfl

/-! ## Writes of the buffer window -/

/-- Settles O40: the write is a `writeWord` with an invalidation, whose lanes read back to the word. -/
theorem bufferWindowWrites : Obligations.BufferWindowWrites := by
  intro s k d hp hk
  have hlane : ∀ j, j < 4 → (s.buf.writeWord (4 * k) d).read (4 * k + j) = some (laneByte d j) :=
    fun _ => Memory.read_writeWord_lane _ _ d
  have hread := busRead_window_written (s := applyWrite (.bufWord k) d s) hk (hlane 0 (by omega)) (hlane 1 (by omega))
    (hlane 2 (by omega)) (hlane 3 (by omega))
  rw [wordOfBytes_lanes] at hread
  exact ⟨_, busWrite_taken (target_window s.params hk) rfl hp, hlane, fun _ => Memory.read_writeWord_outside _ d, rfl,
    hread⟩

/-! ## Who moves, and what the host does -/

/-- Settles O7: the branches of `step`, with `BUSY` read as `PHASE ≠ IDLE`. -/
theorem stepIsTheMoversMove : Obligations.StepIsTheMoversMove := by
  refine ⟨fun s rest ht => ?_, fun s rest ht => ?_, fun s ht hp => ?_, fun s ht hp => ?_⟩
  · simp only [step, ht]
  · simp only [step, ht]
  · simp only [step, ht, is_busy hp, if_true]
  · simp only [step, ht, not_busy hp]
    rfl

/-- A read adds nothing to the host's notes (R52). -/
theorem busRead_responses (a : Nat) (s : State) : (busRead a s).2.responses = s.responses := by
  rw [busRead_state]

/-- A write adds nothing to the host's notes. -/
theorem busWrite_responses (a : Nat) (d : Word) (s : State) : (busWrite a d s).2.responses = s.responses := by
  rcases busWrite_cases a d s with h | ⟨_, h⟩ | ⟨r, _, _, _, h⟩ <;> rw [h]
  · rfl
  · cases r <;> rfl

/-- Settles O8: the branches of `hostStep`; a transaction does not look at the script. -/
theorem hostMoveIsItsNextTransaction : Obligations.HostMoveIsItsNextTransaction := by
  refine fun s => ⟨fun a rest hs => ?_, fun a d rest hs => ?_, fun rest hs => ?_, fun hs => ?_⟩
  · simp only [hostStep, hs, note, busRead_script, busRead_responses]
  · simp only [hostStep, hs, note, busWrite_script, busWrite_responses]
  · by_cases hp : s.phase = .idle
    · simp only [hostStep, hs, not_busy hp, if_pos hp, Reg.offset, busRead_script, busRead_status, note]
      rfl
    · simp only [hostStep, hs, is_busy hp, if_neg hp, if_true, Reg.offset, busRead_status, note]
  · simp only [hostStep, hs]

end Sys2Proof.Machine

namespace Sys2Proof.Machine

/-! # Proofs of the family "encoding": command words, assembler lines, and `LOADBUF`

A word is its three fields (`eq_formatC_of_rsv`), so `encode` and `decode` are inverse on well-formed commands; the legal
words are then the words of those commands. `LOADBUF` is a run of window writes, one word each, and one write of `LEN`. -/

/-! ## The decoder and the encoder are inverse -/

/-- Settles O1: the fields of the word of each command are those its `decode` branch asks for. -/
theorem decodeEncodeRoundTrip : Obligations.DecodeEncodeRoundTrip := by
  intro i hwf
  cases i with
  | varint off =>
    have hoff : off ≤ 65535 := by simpa [Instr.wf] using hwf
    have hfield : (BitVec.ofNat 16 off).toNat = off := by
      rw [BitVec.toNat_ofNat]
      omega
    simp [decode, encode, hfield]
  | nop | slice | chkcmp | clear => rfl

/-- Settles O2: a word that decodes has no reserved bit, and its other fields are those of its command. -/
theorem encodeDecodeAgree : Obligations.EncodeDecodeAgree := by
  intro c i h
  obtain ⟨hrsv, hi⟩ := decode_eq_ok h
  have hc := eq_formatC_of_rsv hrsv
  rcases hi with ⟨rfl, hop, hoff⟩ | ⟨rfl, hop⟩ | ⟨rfl, hop, hoff⟩ | ⟨rfl, hop, hoff⟩ | ⟨rfl, hop, hoff⟩
  case inr.inl =>
    rw [hop] at hc
    exact ⟨decide_eq_true (decode_varint_le h), by rw [encode, BitVec.ofNat_toNat, BitVec.setWidth_eq, ← hc]⟩
  all_goals
    rw [hop, hoff] at hc
    exact ⟨rfl, hc.symm⟩

/-! ## The legal words -/

/-- The formula of R63, its bits named as fields. -/
theorem legal_iff_fields {c : Word} : legal c = true ↔ rsvField c = 0 ∧
    (opField c = 1 ∨ ((((opField c = 0 ∨ opField c = 2) ∨ opField c = 3) ∨ opField c = 4) ∧ offsetField c = 0)) := by
  simp only [legal, Bool.and_eq_true, Bool.or_eq_true, beq_iff_eq]

/-- The `OP` values of the commands without an operand (R63). -/
theorem op_mem_operandless (op : BitVec 4) :
    (((op = 0 ∨ op = 2) ∨ op = 3) ∨ op = 4) ↔ op.toNat ∈ [0, 2, 3, 4] := by
  revert op
  decide

/-- The decoder accepts exactly the legal words (R63, R65). -/
theorem legal_iff_decodes {c : Word} : legal c = true ↔ ∃ i, decode c = .ok i := by
  refine ⟨decode_of_legal, fun ⟨i, h⟩ => legal_iff_fields.2 ?_⟩
  obtain ⟨hrsv, hi⟩ := decode_eq_ok h
  refine ⟨hrsv, ?_⟩
  rcases hi with ⟨-, hop, hoff⟩ | ⟨-, hop⟩ | ⟨-, hop, hoff⟩ | ⟨-, hop, hoff⟩ | ⟨-, hop, hoff⟩ <;> simp [*]

/-- The word of a `VARINT` is its offset over the half word 1 (R60). -/
theorem formatC_varint (x : BitVec 16) : formatC x 1 = x ++ (1 : BitVec 16) := by
  apply BitVec.eq_of_toNat_eq
  rw [formatC, toNat_append_mul, toNat_append_mul, toNat_append_mul]
  simp
  omega

/-- The legal words are the words of the well-formed commands (R63, R65). -/
theorem legal_iff_encodes {c : Word} : legal c = true ↔ ∃ i : Instr, i.wf = true ∧ encode i = c := by
  rw [legal_iff_decodes]
  constructor
  · rintro ⟨i, h⟩
    exact ⟨i, encodeDecodeAgree c i h⟩
  · rintro ⟨i, hwf, rfl⟩
    exact ⟨i, decodeEncodeRoundTrip i hwf⟩

/-- The list of the legal words (R63). -/
theorem legal_iff_listed {c : Word} :
    legal c = true ↔ c = 0 ∨ (∃ x : BitVec 16, c = x ++ (1 : BitVec 16)) ∨ c = 2 ∨ c = 3 ∨ c = 4 := by
  rw [legal_iff_encodes]
  constructor
  · rintro ⟨i, -, rfl⟩
    cases i with
    | nop => exact .inl rfl
    | varint off => exact .inr (.inl ⟨_, formatC_varint _⟩)
    | slice => exact .inr (.inr (.inl rfl))
    | chkcmp => exact .inr (.inr (.inr (.inl rfl)))
    | clear => exact .inr (.inr (.inr (.inr rfl)))
  · rintro (rfl | ⟨x, rfl⟩ | rfl | rfl | rfl)
    · exact ⟨.nop, rfl, rfl⟩
    · refine ⟨.varint x.toNat, decide_eq_true (Nat.le_of_lt_succ x.isLt), ?_⟩
      rw [encode, BitVec.ofNat_toNat, BitVec.setWidth_eq, formatC_varint]
    · exact ⟨.slice, rfl, rfl⟩
    · exact ⟨.chkcmp, rfl, rfl⟩
    · exact ⟨.clear, rfl, rfl⟩

/-- The `VARINT` words are as many as the offsets (R61). -/
theorem ncard_varint_words : (Set.range fun x : BitVec 16 => formatC x 1).ncard = 65536 := by
  rw [Set.ncard_range_of_injective fun x y h => (formatC_inj h).1, Nat.card_eq_fintype_card,
    ← FinEnum.card_eq_fintypeCard, FinEnum.card_bitVec]
  rfl

/-- The words of the commands without an operand (R60). -/
def operandlessWords : Finset Word := {0, 2, 3, 4}

/-- The two kinds of legal words have different `OP` fields (R60). -/
theorem disjoint_operandless_varint :
    Disjoint (operandlessWords : Set Word) (Set.range fun x : BitVec 16 => formatC x 1) := by
  rw [Set.disjoint_left]
  rintro _ hc ⟨x, rfl⟩
  have hop : ∀ c ∈ operandlessWords, opField c ≠ 1 := by
    simp only [operandlessWords, Finset.forall_mem_insert, Finset.mem_singleton, forall_eq]
    decide
  exact hop _ hc (opField_formatC x 1)

/-- The number of legal words (R63). -/
theorem ncard_legal : Set.ncard {c : Word | legal c = true} = 65536 + 4 := by
  have hset : {c : Word | legal c = true} = ↑operandlessWords ∪ Set.range fun x : BitVec 16 => formatC x 1 := by
    ext c
    simp only [Set.mem_ofPred_eq, legal_iff_listed, formatC_varint, operandlessWords, Set.mem_union, Finset.mem_coe,
      Finset.mem_insert, Finset.mem_singleton, Set.mem_range, eq_comm (b := c)]
    tauto
  have hfour : (operandlessWords : Set Word).ncard = 4 := Set.ncard_coe_finset _
  rw [hset, Set.ncard_union_eq disjoint_operandless_varint, hfour, ncard_varint_words]

/-- Settles O3: R63's formula, its list, their number and the decoder's domain. -/
theorem legalWordsAreTheListedOnes : Obligations.LegalWordsAreTheListedOnes := by
  refine ⟨fun c => ?_, fun c => legal_iff_listed, ncard_legal, fun c => legal_iff_decodes⟩
  rw [legal_iff_fields, op_mem_operandless]
  rfl

/-- Settles O4: the decoder evaluated on each word. -/
theorem sampleWordsDecode : Obligations.SampleWordsDecode := by
  unfold Obligations.SampleWordsDecode
  decide

/-- Settles O5: the assembler evaluated on each line, the ten one-digit offsets in turn. -/
theorem assemblerLinesGiveTheirWords : Obligations.AssemblerLinesGiveTheirWords := by
  have hdigit : ∀ off, off ≤ 9 → assemble ['V', 'A', 'R', 'I', 'N', 'T', ' ', Char.ofNat (48 + off)] =
      some (BitVec.ofNat 32 (off * 65536 + 1)) := by decide
  exact ⟨by decide, hdigit, by decide, by decide, by decide, by decide, by decide, by decide⟩

/-! ## `LOADBUF` -/

/-- A host write that the idle block takes, `turns` empty, as a global step (R47, R53). -/
theorem step_taken_write {s : State} {a : Nat} {d : Word} {r : Reg} {rest : List HostOp} (hp : s.phase = .idle)
    (ht : s.turns = []) (hs : s.script = .write a d :: rest) (ha : target s.params.N a = some r)
    (hr : writeRefused r d s = false) :
    step s = .next { applyWrite r d s with script := rest, responses := .write .ok :: s.responses } := by
  obtain ⟨-, -, -, hostMoves⟩ := stepIsTheMoversMove
  obtain ⟨-, hostWrites, -, -⟩ := hostMoveIsItsNextTransaction s
  rw [hostMoves s ht hp, hostWrites a d rest hs, busWrite_taken ha hr hp]

/-- What holds after the first `n` window writes of `LOADBUF bs` (R69): the block is idle as before, and the bytes of
those words are written, the last word filled up with 0. -/
structure WindowLoaded (p : Params) (bs : List Byte) (n : Nat) (t : State) : Prop where
  params_eq : t.params = p
  phase_eq : t.phase = .idle
  turns_eq : t.turns = []
  bytes : ∀ j, j < 4 * n → t.buf.read j = some (bs.getD j 0)

/-- One window write of `LOADBUF` loads one word more (R50, R69). -/
theorem WindowLoaded.writeWord {p : Params} {bs : List Byte} {n : Nat} {t : State} {rest : List HostOp}
    (h : WindowLoaded p bs n t) (hn : 4 * n < p.N)
    (hs : t.script = .write (windowBase + 4 * n) (wordAt bs (4 * n)) :: rest) :
    ∃ u, step t = .next u ∧ u.script = rest ∧ WindowLoaded p bs (n + 1) u := by
  obtain ⟨rfl, hphase, hturns, hbytes⟩ := h
  refine ⟨_, step_taken_write hphase hturns hs (target_window t.params hn) rfl, rfl, rfl, hphase, hturns, fun j hj => ?_⟩
  show (t.buf.writeWord (4 * n) (wordAt bs (4 * n))).read j = some (bs.getD j 0)
  by_cases hlt : j < 4 * n
  · rw [Memory.read_writeWord_outside _ _ (.inl hlt), hbytes j hlt]
  · obtain ⟨i, rfl⟩ := Nat.exists_eq_add_of_le (Nat.le_of_not_lt hlt)
    rw [Memory.read_writeWord_lane _ _ _ (by omega), laneByte_wordAt _ _ _ (by omega)]

/-- The window writes of `LOADBUF`, one step each (R69). -/
theorem windowWrites_run {s : State} (bs : List Byte) (hp : s.phase = .idle) (ht : s.turns = []) :
    ∀ (n : Nat) (rest : List HostOp), 4 * n ≤ s.params.N →
      s.script = (List.range n).map (fun k => HostOp.write (windowBase + 4 * k) (wordAt bs (4 * k))) ++ rest →
      ∃ t, core.run n s = .next t ∧ t.script = rest ∧ WindowLoaded s.params bs n t := by
  intro n
  induction n with
  | zero => exact fun rest _ hs => ⟨s, rfl, hs, rfl, hp, ht, nofun⟩
  | succ n ih =>
    intro rest hn hs
    rw [List.range_succ, List.map_append, List.append_assoc] at hs
    obtain ⟨t, hrun, hscript, hloaded⟩ := ih _ (by omega) hs
    obtain ⟨u, hstep, hrest, hmore⟩ := hloaded.writeWord (by omega) hscript
    exact ⟨u, (core_run_add hrun).trans (core_run_succ hstep 0), hrest, hmore⟩

/-- The words of an input fit the buffer when its bytes do: N is a multiple of 4 (R7). -/
theorem words_fit (p : Params) {n : Nat} (h : n ≤ p.N) : 4 * ((n + 3) / 4) ≤ p.N := by
  simp only [Params.N] at *
  omega

/-- The write of `LEN` that ends `LOADBUF` (R19, R69, R95). -/
theorem step_lenWrite {s : State} {n : Nat} {rest : List HostOp} (hp : s.phase = .idle) (ht : s.turns = [])
    (hn : n ≤ s.params.N) (hs : s.script = [.write (Reg.offset .len) (BitVec.ofNat 32 n)] ++ rest) :
    ∃ t, step s = .next t ∧ t.script = rest ∧ t.phase = .idle ∧ t.len.toNat = n ∧ t.buf = s.buf ∧ t.svalid = false ∧
      t.cmatch = false := by
  have hN := N_le s.params
  have hword : (BitVec.ofNat 32 n).toNat = n := by
    rw [BitVec.toNat_ofNat]
    omega
  have htaken : writeRefused .len (BitVec.ofNat 32 n) s = false := by
    simp only [writeRefused, Reg.readOnly, hword]
    simpa using hn
  refine ⟨_, step_taken_write hp ht hs (target_len _) htaken, rfl, hp, ?_, rfl, rfl, rfl⟩
  show ((BitVec.ofNat 32 n).setWidth 17).toNat = n
  rw [BitVec.toNat_setWidth, hword]
  omega

/-- Settles O58: the window writes load the bytes word by word, the write of `LEN` ends the input. -/
theorem loadBufLoads : Obligations.LoadBufLoads := by
  intro s bs rest hp ht hlen hs
  rw [HostStmt.expand, List.append_assoc] at hs
  obtain ⟨t, hrun, hscript, hloaded⟩ := windowWrites_run bs hp ht _ _ (words_fit _ hlen) hs
  obtain ⟨hparams, hphase, hturns, hbytes⟩ := hloaded
  obtain ⟨u, hstep, hrest, hidle, hulen, hbuf, hsvalid, hcmatch⟩ :=
    step_lenWrite hphase hturns (hparams ▸ hlen) hscript
  have hread : ∀ j, j < bs.length → u.buf.read j = bs[j]? := fun j hj => by
    rw [hbuf, hbytes j (by omega), List.getD_eq_getElem _ _ hj, List.getElem?_eq_getElem hj]
  refine ⟨_, u, (core_run_add hrun).trans (core_run_succ hstep 0), hrest, hidle, hulen, hread, fun i hi => ?_, hsvalid,
    hcmatch⟩
  rw [hread i (hulen ▸ hi), List.getElem?_eq_getElem (hulen ▸ hi)]
  rfl

end Sys2Proof.Machine

namespace Sys2Proof.Machine

/-! # Proofs of the family "varint": the parse, the scan that runs it, and the test-side encoder

`ParseSpec` of the frozen laws says what a parse can answer; it determines the answer (`decodeVarint_eq_ok`), so that a
statement about what some input parses to is one about `ParseSpec`, and no proof here follows the loop of R70 again. The
scan's statements go through the frozen `scan_from_start`, the single `SCAN` step's through `scanStep_next` and the
step's equations. -/

/-! ## The sum of the groups -/

/-- The sum of the groups only grows (R71). -/
theorem groupSum_mono (s : State) (off : Nat) : Monotone (groupSum s off) := fun _ _ h =>
  Finset.sum_le_sum_of_subset (Finset.range_mono h)

/-- The groups whose sum fits are fewer than those whose sum does not (R74). -/
theorem lt_of_groupSum {s : State} {off m n B : Nat} (hfits : groupSum s off m < B) (hover : B ≤ groupSum s off n) :
    m < n :=
  (groupSum_mono s off).reflect_lt (hfits.trans_le hover)

/-- The first group in front of the sum of the others (R71). -/
theorem groupSum_cons (s : State) (off n : Nat) :
    groupSum s off (n + 1) = byteAt s off % 128 + 128 * groupSum s (off + 1) n := by
  simp only [groupSum, Finset.sum_range_succ', Finset.mul_sum, Nat.mul_zero, Nat.pow_zero, Nat.mul_one, Nat.add_zero,
    Nat.add_comm (Finset.sum _ _), Nat.add_assoc, Nat.add_comm 1]
  refine congrArg _ (Finset.sum_congr rfl fun j _ => ?_)
  rw [Nat.mul_add, Nat.pow_add]
  ring

/-- `n` groups have `7*n` bits (R71). -/
theorem groupSum_lt (s : State) (off n : Nat) : groupSum s off n < 2 ^ (7 * n) := by
  induction n generalizing off with
  | zero => simp [groupSum]
  | succ n ih =>
    have := ih (off + 1)
    rw [groupSum_cons, Nat.mul_add, Nat.pow_add]
    omega

/-- Equal groups have equal sums (R71). -/
theorem groupSum_congr {s t : State} {off n : Nat}
    (h : ∀ j, j < n → byteAt t (off + j) % 128 = byteAt s (off + j) % 128) : groupSum t off n = groupSum s off n :=
  Finset.sum_congr rfl fun j hj => by rw [h j (Finset.mem_range.1 hj)]

/-- Groups that are 0 add nothing (R76). -/
theorem groupSum_add_zeros {s : State} {off n m : Nat} (h : ∀ j, j < m → byteAt s (off + n + j) % 128 = 0) :
    groupSum s off (n + m) = groupSum s off n := by
  induction m with
  | zero => rfl
  | succ m ih =>
    rw [← Nat.add_assoc, groupSum_succ, ← Nat.add_assoc, h m (by omega), ih fun j hj => h j (by omega)]
    simp

/-- The group that takes the sum from below a bound to the bound is not 0. -/
theorem group_ne_zero_of_overflow {s : State} {off i B : Nat} (hi : off ≤ i) (hlt : groupSum s off (i - off) < B)
    (hle : B ≤ groupSum s off (i - off + 1)) : byteAt s i % 128 ≠ 0 := by
  intro h0
  rw [groupSum_succ, Nat.add_sub_cancel' hi, h0] at hle
  omega

/-! ## `ParseSpec` determines the answer of the parse -/

/-- What a parse answers, from its start (R71 to R75). -/
theorem decodeVarint_spec {s : State} {off : Nat} {r : ParseResult} (h : decodeVarint s off = .ok r) :
    ParseSpec s off 0 r :=
  decodeVarintFrom_spec _ 0 0 r (by omega) h (by simp [groupSum]) (by simp) (Nat.two_pow_pos _) (.inl rfl)

/-- Every byte from `off` up to `i` was written and has bit 7 set. -/
def ContinuesTo (s : State) (off i : Nat) : Prop := ∀ j, off ≤ j → j < i → ∃ b, s.buf.read j = some b ∧ 128 ≤ b.toNat

/-- The bytes in front of the last one of a successful parse continue (R72). -/
theorem ParseSpec.continues {s : State} {off v n : Nat} (h : ParseSpec s off 0 (.ok v n)) :
    ContinuesTo s off (off + n - 1) := by
  intro j hj hjn
  obtain ⟨-, -, -, -, -, hbytes⟩ := h
  obtain ⟨b, hb, hmore⟩ := hbytes (j - off) (by omega) (by omega)
  rw [Nat.add_sub_cancel' hj] at hb
  exact ⟨b, hb, by omega⟩

/-- The terminating byte of a successful parse stops it (R72). -/
theorem ParseSpec.stops {s : State} {off v n i : Nat} (h : ParseSpec s off 0 (.ok v n)) (hi : ContinuesTo s off i) :
    i < off + n := by
  obtain ⟨hn, -, -, -, -, hbytes⟩ := h
  by_contra hge
  obtain ⟨b, hb, hlast⟩ := hbytes (n - 1) (by omega) (by omega)
  obtain ⟨c, hc, hmore⟩ := hi (off + (n - 1)) (by omega) (by omega)
  cases hb.symm.trans hc
  omega

/-- No input meets the conditions of a success and of a failure (R75). -/
theorem ParseSpec.not_err {s : State} {off v n info : Nat} {e : ErrCode} (h : ParseSpec s off 0 (.ok v n)) :
    ¬ ParseSpec s off 0 (.err e info) := by
  rintro (⟨-, -, -, hmore⟩ | ⟨-, hoff, -, -, hover, -, hmore⟩)
  · have := h.stops hmore
    have := h.2.1
    omega
  · have := h.stops hmore
    obtain ⟨-, -, hv, hfits, -⟩ := h
    have := lt_of_groupSum (hv ▸ hfits) hover
    omega

/-- An input meets the conditions of one failure alone (R75). -/
theorem ParseSpec.err_unique {s : State} {off info info' : Nat} {e e' : ErrCode}
    (h : ParseSpec s off 0 (.err e info)) (h' : ParseSpec s off 0 (.err e' info')) : e = e' ∧ info = info' := by
  rcases h with ⟨rfl, rfl, hfits, -⟩ | ⟨rfl, hoff, hlen, hlt, hover, -, -⟩ <;>
    rcases h' with ⟨rfl, rfl, hfits', -⟩ | ⟨rfl, hoff', hlen', hlt', hover', -, -⟩
  · exact ⟨rfl, rfl⟩
  · have := lt_of_groupSum hfits hover'
    omega
  · have := lt_of_groupSum hfits' hover
    omega
  · have := lt_of_groupSum hlt hover'
    have := lt_of_groupSum hlt' hover
    exact ⟨rfl, by omega⟩

/-- An input meets the conditions of one answer alone (R70, R75). -/
theorem ParseSpec.unique {s : State} {off : Nat} {r r' : ParseResult} (h : ParseSpec s off 0 r)
    (h' : ParseSpec s off 0 r') : r = r' := by
  match r, r', h, h' with
  | .err e i, .err e' i', h, h' =>
    obtain ⟨rfl, rfl⟩ := h.err_unique h'
    rfl
  | .ok v n, .err e i, h, h' => exact absurd h' h.not_err
  | .err e i, .ok v n, h, h' => exact absurd h h'.not_err
  | .ok v n, .ok v' n', h, h' =>
    have := h.stops h'.continues
    have := h'.stops h.continues
    obtain rfl : n = n' := by omega
    rw [h.2.2.1, h'.2.2.1]

/-- Where the conditions of an answer hold, every byte the parse reads was written (R118). -/
theorem ParseSpec.written {s : State} {off i : Nat} {r : ParseResult} (h : ParseSpec s off 0 r)
    (hi : ParseReads s off i) : s.buf.read i ≠ none := by
  obtain ⟨hoff, hlen, hmore, hfits⟩ := hi
  cases r with
  | ok v n =>
    have hin := h.stops hmore
    obtain ⟨-, -, -, -, -, hbytes⟩ := h
    obtain ⟨b, hb, -⟩ := hbytes (i - off) (by omega) (by omega)
    rw [Nat.add_sub_cancel' hoff] at hb
    simp [hb]
  | err e info =>
    rcases h with ⟨-, -, -, hbytes⟩ | ⟨-, hinfo, -, -, hover, hgroup, hbytes⟩
    · obtain ⟨b, hb, -⟩ := hbytes i hoff hlen
      simp [hb]
    · have := lt_of_groupSum hfits hover
      rcases show i < info ∨ i = info by omega with hlt | rfl
      · obtain ⟨b, hb, -⟩ := hbytes i hoff hlt
        simp [hb]
      · intro hnone
        simp [byteAt, hnone] at hgroup

/-- With `LEN ≤ N` the parse answers exactly that of which the conditions hold (R70 to R75). -/
theorem decodeVarint_eq_ok {s : State} (hN : s.len.toNat ≤ s.params.N) {off : Nat} {r : ParseResult} :
    decodeVarint s off = .ok r ↔ ParseSpec s off 0 r := by
  refine ⟨decodeVarint_spec, fun h => ?_⟩
  cases hd : decodeVarint s off with
  | ok r' => rw [(decodeVarint_spec hd).unique h]
  | error f =>
    obtain ⟨-, i, hi, hnone⟩ := decodeVarint_error hd hN
    exact absurd hnone (h.written hi)

/-! ## Successes and failures of the parse -/

/-- Settles O20: the success case of `ParseSpec`. -/
theorem varintValueIsGroupSum : Obligations.VarintValueIsGroupSum := by
  intro s off v n h
  obtain ⟨hn, hlen, hv, hfits, -, hbytes⟩ := decodeVarint_spec h
  exact ⟨hv, hfits, hn, hlen, fun j => hbytes j (Nat.zero_le j)⟩

/-- Settles O21: the failure cases of `ParseSpec`, which determine the answer. -/
theorem varintFailsInIndexOrder : Obligations.VarintFailsInIndexOrder := by
  intro s off malformed overflows
  refine ⟨fun e info h => ?_, fun hN _ => ⟨fun ⟨hfits, hmore⟩ => ?_, fun i ⟨hoff, hlen, hlt, hover, hmore⟩ => ?_⟩⟩
  · rcases decodeVarint_spec h with ⟨he, hinfo, hfits, hmore⟩ | ⟨he, hoff, hlen, hlt, hover, hgroup, hmore⟩
    · exact .inl ⟨he, hinfo, hfits, hmore⟩
    · exact .inr ⟨he, ⟨hoff, hlen, hlt, hover, hmore⟩, hgroup⟩
  · exact (decodeVarint_eq_ok hN).2 (.inl ⟨rfl, rfl, hfits, hmore⟩)
  · exact (decodeVarint_eq_ok hN).2
      (.inr ⟨rfl, hoff, hlen, hlt, hover, group_ne_zero_of_overflow hoff hlt hover, hmore⟩)

/-- Setting bit 7 of a byte leaves its group alone, and makes the byte one that continues (R71, R72). -/
theorem toNat_or_0x80 (b : Byte) : (b ||| 0x80).toNat % 128 = b.toNat % 128 ∧ 128 ≤ (b ||| 0x80).toNat := by
  refine ⟨?_, (continues_iff _).1 (by simp [continues])⟩
  have hgroup : (b ||| 0x80) &&& 0x7F#8 = b &&& 0x7F#8 := by
    rw [BitVec.and_or_distrib_right]
    exact BitVec.or_zero
  rw [← group_eq, ← group_eq, group, group, hgroup]

/-- Settles O22: the zero groups add nothing to the sum, and each of the bytes in front of the last one continues. -/
theorem redundantEncodingsAreAccepted : Obligations.RedundantEncodingsAreAccepted := by
  intro s t off v n z h hparams hsame ⟨b, hsb, htb⟩ hzeros hend hlen hN
  obtain ⟨hn, -, hv, hfits, -, hbytes⟩ := decodeVarint_spec h
  rw [show off + n - 1 = off + (n - 1) by omega] at hsb htb
  have hsame_groups : groupSum t off n = groupSum s off n := groupSum_congr fun j hj => by
    by_cases hlast : j + 1 < n
    · simp only [byteAt, hsame j hlast]
    · obtain rfl : j = n - 1 := by omega
      rw [byteAt_of_read hsb, byteAt_of_read htb, (toNat_or_0x80 b).1]
  have hrest : groupSum t off (n + (z + 1)) = groupSum t off n := groupSum_add_zeros fun j hj => by
    by_cases hlast : j < z
    · rw [byteAt_of_read (hzeros j hlast)]
      rfl
    · obtain rfl : j = z := by omega
      rw [byteAt_of_read hend]
      rfl
  have hsum : v = groupSum t off (n + z + 1) := hv.trans (hsame_groups.symm.trans hrest.symm)
  refine (decodeVarint_eq_ok hN).2
    ⟨by omega, by omega, hsum, by rwa [hparams], hsum ▸ groupSum_lt t off _, fun j _ hj => ?_⟩
  rcases show j + 1 < n ∨ j = n - 1 ∨ (n ≤ j ∧ j < n + z) ∨ j = n + z by omega with hj | rfl | ⟨hnj, hjz⟩ | rfl
  · obtain ⟨c, hc, hmore⟩ := hbytes j (Nat.zero_le j) (by omega)
    exact ⟨c, (hsame j hj).trans hc, by omega⟩
  · exact ⟨_, htb, by have := (toNat_or_0x80 b).2; omega⟩
  · have hread := hzeros (j - n) (by omega)
    rw [show off + n + (j - n) = off + j by omega] at hread
    exact ⟨_, hread, by simp; omega⟩
  · exact ⟨_, by rwa [← Nat.add_assoc], by simp⟩

/-! ## The test-side encoder -/

/-- The encoder's fuel does not matter once it is above the value (R80). -/
theorem varintEncodeFrom_fuel {f g v : Nat} (hf : v < f) (hg : v < g) :
    varintEncodeFrom f v = varintEncodeFrom g v := by
  induction f generalizing g v with
  | zero => omega
  | succ f ih =>
    obtain ⟨g, rfl⟩ : ∃ k, g = k + 1 := ⟨g - 1, by omega⟩
    simp only [varintEncodeFrom, Nat.shiftRight_eq_div_pow]
    split
    · rfl
    · rw [ih (g := g) (by omega) (by omega)]

/-- The last byte of an encoding (R80). -/
theorem varintEncode_of_lt {v : Nat} (h : v < 128) : varintEncode v = [BitVec.ofNat 8 v] := by
  have hmask : v &&& 0x7F = v % 128 := Nat.and_two_pow_sub_one_eq_mod v 7
  have hlast : v >>> 7 = 0 := by rw [Nat.shiftRight_eq_div_pow]; omega
  rw [varintEncode, varintEncodeFrom, if_pos hlast, hmask, Nat.mod_eq_of_lt h]

/-- A byte of an encoding that is not its last (R80). -/
theorem varintEncode_of_ge {v : Nat} (h : 128 ≤ v) :
    varintEncode v = BitVec.ofNat 8 (v % 128 + 128) :: varintEncode (v / 128) := by
  have hmask : (v &&& 0x7F) ||| 0x80 = v % 128 + 128 := by
    rw [show v &&& 0x7F = v % 128 from Nat.and_two_pow_sub_one_eq_mod v 7, Nat.or_comm, Nat.add_comm]
    exact (Nat.two_pow_add_eq_or_of_lt (i := 7) (Nat.mod_lt v (by omega)) 1).symm
  have hshift : v >>> 7 = v / 128 := Nat.shiftRight_eq_div_pow v 7
  rw [varintEncode, varintEncodeFrom, hshift, if_neg (by omega), hmask, varintEncode,
    varintEncodeFrom_fuel (g := v / 128 + 1) (by omega) (by omega)]

/-- What holds of the last byte of an encoding, and is kept by a byte put in front, holds of every encoding (R80). -/
theorem varintEncode_induction {P : Nat → List Byte → Prop} (last : ∀ v, v < 128 → P v [BitVec.ofNat 8 v])
    (more : ∀ v bs, 128 ≤ v → P (v / 128) bs → P v (BitVec.ofNat 8 (v % 128 + 128) :: bs)) (v : Nat) :
    P v (varintEncode v) := by
  induction v using Nat.strong_induction_on with
  | _ v ih =>
    by_cases h : v < 128
    · rw [varintEncode_of_lt h]
      exact last v h
    · rw [varintEncode_of_ge (by omega)]
      exact more v _ (by omega) (ih _ (by omega))

/-- Seven bits fewer by a division by 128. -/
theorem size_div_128 {v : Nat} (h : 128 ≤ v) : Nat.size v = Nat.size (v / 128) + 7 := by
  have hle : ∀ n, Nat.size (v / 128) ≤ n ↔ Nat.size v ≤ n + 7 := fun n => by
    rw [Nat.size_le, Nat.size_le, Nat.pow_add, Nat.div_lt_iff_lt_mul (by omega)]
  have hlt : 7 < Nat.size v := Nat.lt_size.2 h
  have := (hle _).1 le_rfl
  have := (hle (Nat.size v - 7)).2 (by omega)
  omega

/-- The length of an encoding is `ceil(bitlength(v) / 7)` (R80). -/
theorem varintEncode_length (v : Nat) : 1 ≤ v → (varintEncode v).length = (Nat.size v + 6) / 7 := by
  refine varintEncode_induction (P := fun v bs => 1 ≤ v → bs.length = (Nat.size v + 6) / 7) (fun v hv hpos => ?_)
    (fun v bs hv ih _ => ?_) v
  · have := Nat.size_pos.2 hpos
    have : Nat.size v ≤ 7 := Nat.size_le.2 hv
    simp only [List.length_singleton]
    omega
  · rw [List.length_cons, ih (by omega), size_div_128 hv]
    omega

/-- An encoding has a byte, and exactly its last has bit 7 clear (R80). -/
theorem varintEncode_bits (v : Nat) : 0 < (varintEncode v).length ∧
    ∀ j (h : j < (varintEncode v).length), 128 ≤ (varintEncode v)[j].toNat ↔ j + 1 < (varintEncode v).length := by
  refine varintEncode_induction
    (P := fun _ bs => 0 < bs.length ∧ ∀ j (h : j < bs.length), 128 ≤ bs[j].toNat ↔ j + 1 < bs.length)
    (fun v hv => ⟨by simp, fun j hj => ?_⟩) (fun v bs _ ih => ⟨by simp, fun j hj => ?_⟩) v
  · obtain rfl : j = 0 := by simpa using hj
    have : v % 256 < 128 := by omega
    simpa using this
  · obtain ⟨hpos, hbits⟩ := ih
    cases j with
    | zero =>
      simp
      omega
    | succ j => simpa using hbits j (by simpa using hj)

/-- The groups of an encoding sum to the value it encodes (R71, R80). -/
theorem groupSum_varintEncode (s : State) (v : Nat) : ∀ off,
    (∀ j (h : j < (varintEncode v).length), s.buf.read (off + j) = some (varintEncode v)[j]) →
    groupSum s off (varintEncode v).length = v := by
  refine varintEncode_induction (P := fun v bs => ∀ off,
    (∀ j (h : j < bs.length), s.buf.read (off + j) = some bs[j]) → groupSum s off bs.length = v)
    (fun v hv off hread => ?_) (fun v bs hv ih off hread => ?_) v
  · have h0 : byteAt s off = v % 256 := by simpa using byteAt_of_read (hread 0 (by simp))
    simp only [List.length_singleton, groupSum, Finset.sum_range_one, Nat.add_zero, h0]
    omega
  · have h0 : byteAt s off = (v % 128 + 128) % 256 := byteAt_of_read (hread 0 (by simp))
    have hrest := ih (off + 1) fun j hj => by
      rw [Nat.add_assoc, Nat.add_comm 1]
      exact hread (j + 1) (by simpa using hj)
    rw [List.length_cons, groupSum_cons, h0, hrest]
    omega

/-- Settles O24: the length and the bits of an encoding, byte by byte. -/
theorem varintEncodeIsShortest : Obligations.VarintEncodeIsShortest := fun v =>
  ⟨fun hv => by rw [varintEncode_of_lt hv]; rfl, varintEncode_length v, (varintEncode_bits v).2⟩

/-- Settles O23: an encoding meets the conditions of its value and length; 0x80 0x00 parses to 0, whose encoding is one
byte. -/
theorem varintRoundTrip : Obligations.VarintRoundTrip := by
  refine ⟨fun s off v hv hN hlen hread => ?_, ?_⟩
  · have hsum := groupSum_varintEncode s v off hread
    obtain ⟨hpos, hbits⟩ := varintEncode_bits v
    have hfits := groupSum_lt s off (varintEncode v).length
    rw [hsum] at hfits
    exact (decodeVarint_eq_ok hN).2
      ⟨hpos, hlen, hsum.symm, hv, hfits, fun j _ hj => ⟨_, hread j hj, hbits j hj⟩⟩
  · exact ⟨{ State.reset with buf := [(0, 0x80), (1, 0x00)], len := 2 }, 0, 2, by decide, by decide⟩

/-! ## The effect of `VARINT` -/

/-- A failed `VARINT` clears `VVALID` alone (R79, R98). -/
theorem complete_varint_err (off : Nat) {e : ErrCode} (he : e ≠ .noError) (info : Nat) (s : State) :
    complete (some (.varint off)) e info s = endCommand e info { s with vvalid := false } := by
  simp only [complete, endCommand, completedVvalid, completedSvalid, completedCmatch, if_neg he]

/-- The failures of a parse have codes other than `NONE` (R73, R74). -/
theorem ParseSpec.err_ne_noError {s : State} {off k info : Nat} {e : ErrCode} (h : ParseSpec s off k (.err e info)) :
    e ≠ .noError := by
  rcases h with ⟨rfl, -⟩ | ⟨rfl, -⟩ <;> decide

/-- The word of `VARINT off` (R60) decodes. -/
theorem decode_varint_word {off : Nat} (h : off ≤ 65535) :
    decode (BitVec.ofNat 32 (off * 65536 + 1)) = .ok (.varint off) := by
  have hword : encode (.varint off) = BitVec.ofNat 32 (off * 65536 + 1) := by
    apply BitVec.eq_of_toNat_eq
    have hone : (1 : BitVec 16).toNat = 1 := rfl
    simp only [encode, formatC_varint, toNat_append_mul, BitVec.toNat_ofNat, hone]
    omega
  exact hword ▸ decodeEncodeRoundTrip (.varint off) (decide_eq_true h)

/-- The effect of a `VARINT` whose parse succeeds is its completion with the value and count latched (R79, R98). -/
theorem varintEffect_of_ok {s : State} {off v n : Nat} (h : decodeVarint s off = .ok (.ok v n)) :
    varintEffect off s = .ok (complete (some (.varint off)) .noError 0 (latchValue v n s)) := by
  rw [varintEffect, h]
  rfl

/-- The effect of a `VARINT` whose parse fails is its completion with the parse's code (R79, R98). -/
theorem varintEffect_of_err {s : State} {off info : Nat} {e : ErrCode} (h : decodeVarint s off = .ok (.err e info)) :
    varintEffect off s = .ok (complete (some (.varint off)) e info s) := by
  rw [varintEffect, h, complete_varint_err off (decodeVarint_spec h).err_ne_noError]

/-- Where the function answers, the rule gives an effect, which the end of the scan has but for the scan registers (R78,
R79). -/
theorem varintEffect_of_scanEnds {s : State} {off : Nat} {r : ParseResult} (hcmd : latched s = some (.varint off))
    (hd : decodeVarint s off = .ok r) :
    ∃ t, varintEffect off s = .ok t ∧ ∀ u, ScanEnds (startScan .mv off s) r u → SameButScan t u := by
  have hcmd' : latched (startScan .mv off s) = some (.varint off) := hcmd
  cases r with
  | ok v n =>
    refine ⟨_, varintEffect_of_ok hd, fun u ⟨hmv, _⟩ => ?_⟩
    exact hcmd' ▸ hmv rfl
  | err e info =>
    refine ⟨_, varintEffect_of_err hd, fun u hu => ?_⟩
    rw [ScanEnds, hcmd'] at hu
    exact hu

/-- Settles O16: the scan from its start does what the function answers, and a parse stops only at an unwritten byte it
reads. -/
theorem varintRunsToItsEffect : Obligations.VarintRunsToItsEffect := by
  intro s off hword hoff
  have hcmd : latched s = some (.varint off) := latched_of_decode (hword ▸ decode_varint_word hoff)
  refine ⟨rfl, fun t ht => ?_, fun hN hwritten => ?_⟩
  · have hscan := scan_from_start .mv off s hoff
    cases hd : decodeVarint s off with
    | error f => simp [varintEffect, hd] at ht
    | ok r =>
      rw [hd] at hscan
      obtain ⟨k, u, -, hk, hrun, hends⟩ := hscan
      obtain ⟨t', ht', hsame⟩ := varintEffect_of_scanEnds hcmd hd
      cases ht'.symm.trans ht
      exact ⟨k, u, by split <;> omega, hrun, hsame u hends⟩
  · cases hd : decodeVarint s off with
    | ok r => exact (varintEffect_of_scanEnds hcmd hd).imp fun _ => And.left
    | error f =>
      obtain ⟨-, i, hi, hnone⟩ := decodeVarint_error hd hN
      obtain ⟨b, hb⟩ := hwritten i hi
      simp [hb] at hnone

/-! ## One `SCAN` step -/

/-- In `SCAN` the engine's step is the `SCAN` step (R96). -/
theorem engineStep_scan {s : State} (hp : s.phase = .scan) : engineStep s = scanStep s := by
  simp only [engineStep, hp]

/-- The scan registers after one more byte that fits, in any state (R38, R78). -/
theorem consumeByte_toNat {s : State} {b : Byte} (hl : s.ptr.toNat < s.len.toNat)
    (hc : contribution b s.shift.toNat < 2 ^ s.params.W) :
    (consumeByte b s).ptr.toNat = s.ptr.toNat + 1 ∧
    (consumeByte b s).shift.toNat = min (s.shift.toNat + 7) s.params.W ∧
    (consumeByte b s).acc.toNat = s.acc.toNat ||| contribution b s.shift.toNat ∧
    (s.cnt.toNat ≤ s.ptr.toNat → (consumeByte b s).cnt.toNat = s.cnt.toNat + 1) := by
  have hlen := s.len.isLt
  have hW := W_le s.params
  have hacc : s.acc.toNat ||| contribution b s.shift.toNat < 2 ^ 64 :=
    Nat.or_lt_two_pow s.acc.isLt (hc.trans_le (Nat.pow_le_pow_right (by omega) hW))
  simp only [consumeByte_ptr, consumeByte_shift, consumeByte_acc, consumeByte_cnt, BitVec.toNat_ofNat,
    Nat.mod_eq_of_lt hacc]
  refine ⟨?_, ?_, trivial, fun hcnt => ?_⟩ <;> omega

/-- Settles O25: of what a `SCAN` step can do, taking a byte that continues alone stays in `SCAN`. -/
theorem scanStepTakesOneByte : Obligations.ScanStepTakesOneByte := by
  intro s t hp _ h ht
  rw [engineStep_scan hp] at h
  rcases scanStep_next h with ⟨_, rfl⟩ | ⟨b, hl, hb, ⟨_, rfl⟩ | ⟨hc, hmore, rfl⟩ | ⟨_, _, rfl⟩⟩
  · cases ht
  · cases ht
  · obtain ⟨hptr, hshift, hacc, hcnt⟩ := consumeByte_toNat hl hc
    rw [contribution_eq] at hc hacc
    exact ⟨b, hl, (readByte_eq_ok.1 hb).2, (continues_iff b).1 hmore, hc, hptr, hshift, hacc, hcnt, rfl⟩
  · rcases finishScan_cases (consumeByte b s) with ⟨_, hf⟩ | ⟨_, hf⟩ <;> rw [hf] at ht <;> cases ht

/-- A `SCAN` step with no byte left (R73, R78). -/
theorem scanStep_of_end {s : State} (h : s.len.toNat ≤ s.ptr.toNat) :
    scanStep s = .next (complete (latched s) .malformedVarint s.ptr.toNat s) := by
  simp only [scanStep, if_pos h]

/-- A `SCAN` step whose group is out of range (R74, R78). -/
theorem scanStep_of_overflow {s : State} {b : Byte} (hl : s.ptr.toNat < s.len.toNat)
    (hb : readByte s s.ptr.toNat = .ok b) (hc : 2 ^ s.params.W ≤ contribution b s.shift.toNat) :
    scanStep s = .next (complete (latched s) .varintOverflow s.ptr.toNat s) := by
  simp only [scanStep, if_neg (Nat.not_le.2 hl), hb, if_pos hc]

/-- A `SCAN` step that takes the terminating byte (R72, R78). -/
theorem scanStep_of_last {s : State} {b : Byte} (hl : s.ptr.toNat < s.len.toNat)
    (hb : readByte s s.ptr.toNat = .ok b) (hc : contribution b s.shift.toNat < 2 ^ s.params.W)
    (hlast : continues b = false) : scanStep s = .next (finishScan (consumeByte b s)) := by
  simp [scanStep, Nat.not_le.2 hl, hb, Nat.not_le.2 hc, hlast]

/-- A failed `SLICE` clears the three valid bits (R89, R98). -/
theorem complete_slice_err {e : ErrCode} (he : e ≠ .noError) (info : Nat) (s : State) :
    complete (some .slice) e info s =
      endCommand e info { s with vvalid := false, svalid := false, cmatch := false } := by
  simp only [complete, endCommand, completedVvalid, completedSvalid, completedCmatch, if_neg he]

/-- Settles O26: both failures complete the latched command with `PTR`, and the command says which valid bits fall. -/
theorem scanStepFailures : Obligations.ScanStepFailures := by
  intro s e hp hfails
  obtain ⟨hstep, he⟩ :
      engineStep s = .next (complete (latched s) e s.ptr.toNat s) ∧ e ≠ .noError := by
    rw [engineStep_scan hp]
    rcases hfails with ⟨hend, rfl⟩ | ⟨b, hl, hN, hb, hover, rfl⟩
    · exact ⟨scanStep_of_end hend, by decide⟩
    · exact ⟨scanStep_of_overflow hl (readByte_eq_ok.2 ⟨hN, hb⟩) (by rwa [contribution_eq]), by decide⟩
  refine ⟨fun off hcmd => ?_, fun hcmd => ?_⟩
  · rw [hstep, latched_of_decode hcmd, complete_varint_err off he, endCommand, BitVec.ofNat_toNat]
  · rw [hstep, latched_of_decode hcmd, complete_slice_err he, endCommand, BitVec.ofNat_toNat]

/-- Settles O27: the step takes the byte into the scan registers, and `MODE` says how the scan ends. -/
theorem scanStepEndsTheParse : Obligations.ScanStepEndsTheParse := by
  intro s b hp _ hcp hl hN hb hlast hfits
  have hgroup : contribution b s.shift.toNat = b.toNat * 2 ^ s.shift.toNat := by
    rw [contribution_eq, Nat.mod_eq_of_lt hlast]
  have hc : contribution b s.shift.toNat < 2 ^ s.params.W := hgroup ▸ hfits
  have hstop : continues b = false := by
    rw [← Bool.not_eq_true, continues_iff]
    omega
  obtain ⟨hptr, hshift, hacc, hcnt⟩ := consumeByte_toNat hl hc
  rw [hgroup] at hacc
  refine ⟨finishScan (consumeByte b s),
    (engineStep_scan hp).trans (scanStep_of_last hl (readByte_eq_ok.2 ⟨hN, hb⟩) hc hstop), ?_⟩
  rcases finishScan_cases (consumeByte b s) with ⟨hm, hf⟩ | ⟨hm, hf⟩ <;> rw [hf] <;>
    refine ⟨hptr, hcnt hcp, hshift, hacc, fun off hmv hcmd => ?_, fun hms => ?_⟩
  · have hlatched : latched (consumeByte b s) = some (.varint off) := latched_of_decode hcmd
    rw [hlatched, latchValue, BitVec.ofNat_toNat, BitVec.ofNat_toNat, BitVec.setWidth_eq, BitVec.setWidth_eq]
    rfl
  · cases hm.symm.trans hms
  · cases hm.symm.trans hmv
  · rfl

end Sys2Proof.Machine

namespace Sys2Proof.Machine

/-! # Proofs of the family "slice": `SliceAddress`, the run of `SLICE`, `CHKCMP`, the address pipeline

`SliceAnswer` says once what `SliceAddress` answers and when. `completeSlice` is the completion R89 gives to each
answer; the rule's effect and the engine's `CHECK` step are both that completion (`sliceEffect_eq_completeSlice`,
`checkStep_of_parse`), which settles how a `SLICE` runs. `CHKCMP` with `SVALID` set is one equation
(`exec_chkcmp_of_svalid`). The address pipeline joins the two by what a `RUN` statement does to an idle block
(`run_statement`). -/

/-! ## The answers of `SliceAddress` -/

/-- What `SliceAddress` answers, by the parse of the first field, the length check and the 68 bytes after the field
(R82, R118). -/
inductive SliceAnswer (s : State) : Except Fault SliceResult → Prop
  | parseFault {f : Fault} (hd : decodeVarint s 0 = .error f) : SliceAnswer s (.error f)
  | parseErr {e : ErrCode} {info : Nat} (hd : decodeVarint s 0 = .ok (.err e info)) : SliceAnswer s (.ok (.err e info))
  | short {v p : Nat} (hd : decodeVarint s 0 = .ok (.ok v p)) (hl : s.len.toNat < p + 68) :
      SliceAnswer s (.ok (.err .truncatedAddress (p + 68)))
  | byteFault {v p : Nat} {f : Fault} (hd : decodeVarint s 0 = .ok (.ok v p)) (hl : p + 68 ≤ s.len.toNat)
      (hb : readBytes s p 68 = .error f) : SliceAnswer s (.error f)
  | slices {v p : Nat} {bs : List Byte} (hd : decodeVarint s 0 = .ok (.ok v p)) (hl : p + 68 ≤ s.len.toNat)
      (hb : readBytes s p 68 = .ok bs) : SliceAnswer s (.ok (.ok (cutSlices v p bs)))

/-- `SliceAnswer` is the function as a relation (R82). -/
theorem sliceAddress_eq_iff {s : State} {r : Except Fault SliceResult} : sliceAddress s = r ↔ SliceAnswer s r := by
  have hreq : ∀ p, requiredLength p = p + 68 := fun _ => rfl
  constructor
  · rintro rfl
    unfold sliceAddress
    split
    next hd => exact .parseFault hd
    next hd => exact .parseErr hd
    next v p hd =>
      rw [hreq]
      split
      next hl => exact .short hd hl
      next hl =>
        split
        next hb => exact .byteFault hd (Nat.le_of_not_lt hl) hb
        next hb => exact .slices hd (Nat.le_of_not_lt hl) hb
  · intro h
    cases h with
    | parseFault hd => simp only [sliceAddress, hd]
    | parseErr hd => simp only [sliceAddress, hd]
    | short hd hl => simp only [sliceAddress, hd, hreq, if_pos hl]
    | byteFault hd hl hb => simp only [sliceAddress, hd, hreq, if_neg (Nat.not_lt.2 hl), hb]
    | slices hd hl hb => exact sliceAddress_eq_cutSlices hd hl hb

/-- With `LEN ≤ N` the function stops only at a byte it reads that nothing has written (R118). -/
theorem sliceAddress_error {s : State} {f : Fault} (h : sliceAddress s = .error f) (hN : s.len.toNat ≤ s.params.N) :
    f = .unwrittenByte ∧ ∃ i, SliceReads s i ∧ s.buf.read i = none := by
  cases sliceAddress_eq_iff.1 h with
  | parseFault hd =>
    obtain ⟨hf, i, hi, hnone⟩ := decodeVarint_error hd hN
    exact ⟨hf, i, .inl hi, hnone⟩
  | byteFault hd hl hb =>
    obtain ⟨j, hj, hread⟩ := readBytes_error hb
    rcases readByte_eq_error.1 hread with ⟨hout, _⟩ | ⟨_, hnone, hf⟩
    · omega
    · exact ⟨hf, _, .inr ⟨_, _, hd, hl, by omega, by omega⟩, hnone⟩

/-- The failures of `SliceAddress` have codes other than `NONE` (R82). -/
theorem sliceAddress_err_ne_noError {s : State} {e : ErrCode} {info : Nat} (h : sliceAddress s = .ok (.err e info)) :
    e ≠ .noError := by
  cases sliceAddress_eq_iff.1 h with
  | parseErr hd => exact (decodeVarint_spec hd).err_ne_noError
  | short hd hl => decide

/-- Settles O28: each case is one answer of `SliceAnswer`, and the 68 bytes of a written input exist. -/
theorem sliceAddressByCases : Obligations.SliceAddressByCases := by
  intro s
  refine ⟨fun e info hd => sliceAddress_eq_iff.2 (.parseErr hd),
    fun v p hd hl => sliceAddress_eq_iff.2 (.short hd hl), fun v p hd hl hN hw => ?_⟩
  obtain ⟨bs, hb⟩ := sliceBytes_exist hN hw hl
  exact ⟨cutSlices v p bs, sliceAddress_eq_iff.2 (.slices hd hl hb), rfl, rfl, rfl, cut_facts hb⟩

/-- Settles O31: neither the parse nor the 68 bytes after it look past `p + 68`. -/
theorem bytesAfterChecksumAreIgnored : Obligations.BytesAfterChecksumAreIgnored := by
  intro s x m n h hn hsame
  obtain ⟨hd, -, bs, hb, hx⟩ := sliceAddress_ok h
  have hparse : decodeVarint { s with buf := m, len := n } 0 = .ok (.ok x.pfx x.p) :=
    (parse_stable (s := s) (t := { s with buf := m, len := n }) rfl _ _ 0 0 _ _ hd (by simp only; omega)
      (by simp only; omega) fun i hi => hsame i (by omega)).1
  have hbytes : readBytes { s with buf := m, len := n } x.p 68 = .ok bs :=
    (readBytes_congr (s := { s with buf := m, len := n }) (t := s) rfl fun j hj => hsame (x.p + j) (by omega)).trans hb
  rw [sliceAddress_eq_iff.2 (.slices hparse hn hbytes), ← hx]

/-! ## The `CHECK` step -/

/-- In `CHECK` the engine's step is the `CHECK` step (R96). -/
theorem engineStep_check {s : State} (hp : s.phase = .check) : engineStep s = checkStep s := by
  simp only [engineStep, hp]

/-- A `CHECK` step of a short input (R83, R88). -/
theorem checkStep_of_short {s : State} (h : s.len.toNat < s.cnt.toNat + 68) :
    checkStep s = .next (complete (latched s) .truncatedAddress (s.cnt.toNat + 68) s) :=
  if_pos h

/-- A `CHECK` step of an input that is long enough and whose 68 bytes exist (R88). -/
theorem checkStep_of_bytes {s : State} {bs : List Byte} (hl : s.cnt.toNat + 68 ≤ s.len.toNat)
    (hb : readBytes s s.cnt.toNat 68 = .ok bs) :
    checkStep s =
      .next (complete (latched s) .noError 0 (latchSlices (cutSlices s.acc.toNat s.cnt.toNat bs) s)) := by
  have hlong : ¬ s.len.toNat < requiredLength s.cnt.toNat := Nat.not_lt.2 hl
  simp only [checkStep, if_neg hlong, hb]

/-- A `CHECK` step that meets a byte it cannot read (R118). -/
theorem checkStep_of_byteFault {s : State} {f : Fault} (hl : s.cnt.toNat + 68 ≤ s.len.toNat)
    (hb : readBytes s s.cnt.toNat 68 = .error f) : checkStep s = .fault f := by
  have hlong : ¬ s.len.toNat < requiredLength s.cnt.toNat := Nat.not_lt.2 hl
  simp only [checkStep, if_neg hlong, hb]

/-- Settles O29: the completion of a failed `SLICE` clears the three valid bits. -/
theorem checkStepTruncates : Obligations.CheckStepTruncates := by
  intro s hp hcmd hl
  rw [engineStep_check hp, checkStep_of_short hl, latched_of_decode hcmd, complete_slice_err (by decide), endCommand]

/-- The bytes of a key in its words (R31, R32). -/
theorem getElem?_eq_keyByteBits {bs : List Byte} (hl : bs.length = 32) {j : Nat} (hj : j < 32) :
    bs[j]? = some (keyByteBits (keyWords bs) j hj) := by
  have hj' : j < bs.length := hl ▸ hj
  rw [keyByteBits_keyWords, List.getD_eq_getElem _ _ hj', List.getElem?_eq_getElem hj']

/-- The bytes of the checksum in its word (R29). -/
theorem getElem?_eq_checksumLane {bs : List Byte} (hl : bs.length = 4) {j : Nat} (hj : j < 4) :
    bs[j]? = some (laneByte (wordAt bs 0) j) := by
  have hj' : j < bs.length := hl ▸ hj
  rw [laneByte_wordAt bs 0 j hj, Nat.zero_add, List.getD_eq_getElem _ _ hj', List.getElem?_eq_getElem hj']

/-- Settles O30: the cut slices hold the buffer's bytes, and the key and checksum words hold the slices' bytes. -/
theorem checkStepLatchesSlices : Obligations.CheckStepLatchesSlices := by
  intro s hp hcmd hl hN hw
  obtain ⟨bs, hb⟩ := sliceBytes_exist hN hw hl
  obtain ⟨hspend, hview, hchk, hspendBytes, hviewBytes, hchkBytes⟩ := cut_facts (v := s.acc.toNat) hb
  refine ⟨_, (engineStep_check hp).trans (checkStep_of_bytes hl hb), ?_⟩
  rw [latched_of_decode hcmd]
  refine ⟨fun j hj => (hspendBytes j hj).trans (getElem?_eq_keyByteBits hspend hj),
    fun j hj => (hviewBytes j hj).trans (getElem?_eq_keyByteBits hview hj),
    fun j hj => (hchkBytes j hj).trans (getElem?_eq_checksumLane hchk hj), ?_⟩
  simp only [latchSlices, latchValue, cutSlices, BitVec.ofNat_toNat, BitVec.setWidth_eq]
  rfl

/-! ## `SLICE` runs to its effect -/

/-- How a `SLICE` completes with the answer of `SliceAddress` (R89, R98). -/
def completeSlice : SliceResult → State → State
  | .ok x, s => complete (some .slice) .noError 0 (latchSlices x s)
  | .err e info, s => complete (some .slice) e info s

/-- The effect of the rule is the completion with the function's answer (R89). -/
theorem sliceEffect_eq_completeSlice {s : State} {r : SliceResult} (h : sliceAddress s = .ok r) :
    sliceEffect s = .ok (completeSlice r s) := by
  cases r with
  | ok x => rw [sliceEffect, h]; rfl
  | err e info => rw [sliceEffect, h, completeSlice, complete_slice_err (sliceAddress_err_ne_noError h)]

/-- The completion sets `PHASE`, and reads no scan register (R89). -/
theorem completeSlice_sameButScan {s u : State} {p : Phase} (r : SliceResult)
    (h : SameButScan { s with phase := p } u) : SameButScan (completeSlice r s) (completeSlice r u) := by
  unfold SameButScan at h
  rw [h]
  cases r <;> rfl

/-- Where `ACC` and `CNT` hold the parse, the `CHECK` step is what `SliceAddress` answers (R82, R88). -/
theorem checkStep_of_parse {s : State} (hcmd : latched s = some .slice)
    (hd : decodeVarint s 0 = .ok (.ok s.acc.toNat s.cnt.toNat)) :
    checkStep s = match sliceAddress s with
      | .error f => .fault f
      | .ok r => .next (completeSlice r s) := by
  by_cases hl : s.len.toNat < s.cnt.toNat + 68
  · rw [checkStep_of_short hl, sliceAddress_eq_iff.2 (.short hd hl), hcmd]
    rfl
  · replace hl := Nat.le_of_not_lt hl
    cases hb : readBytes s s.cnt.toNat 68 with
    | error f => rw [checkStep_of_byteFault hl hb, sliceAddress_eq_iff.2 (.byteFault hd hl hb)]
    | ok bs =>
      rw [checkStep_of_bytes hl hb, sliceAddress_eq_iff.2 (.slices hd hl hb), hcmd]
      rfl

/-- The `CHECK` step at the end of the scan of a `SLICE` gives what `SliceAddress` gives from the start (R78, R88). -/
theorem checkStep_after_scan {s u : State} (hcmd : latched s = some .slice)
    (h : SameButScan { s with phase := .check } u) (hd : decodeVarint s 0 = .ok (.ok u.acc.toNat u.cnt.toNat)) :
    engineStep u = match sliceAddress s with
      | .error f => .fault f
      | .ok r => .next (completeSlice r u) := by
  obtain ⟨hparams, hbuf, -, -, -, -, -, hlen, -, -, -, -, -, -, -, -, hlcmd, hphase⟩ := scan_fields h
  have hd' := (decodeVarint_congr (s := u) (t := s) hparams hlen hbuf 0).trans hd
  rw [engineStep_check hphase, checkStep_of_parse ((latched_congr hlcmd).trans hcmd) hd',
    sliceAddress_congr (s := u) (t := s) hparams hlen hbuf]

/-- A whole `SLICE`, from its DecodeStep on, does what `SliceAddress` answers (R89, R103). -/
theorem slice_from_start {s : State} (hcmd : latched s = some .slice) :
    match sliceAddress s with
    | .error f => ∃ k, engineRun k (startScan .ms 0 s) = .fault f
    | .ok r => ∃ k u, k ≤ s.len.toNat + 2 ∧ engineRun k (startScan .ms 0 s) = .next u ∧
        SameButScan (completeSlice r s) u := by
  have hscan := scan_from_start .ms 0 s (by omega)
  cases hd : decodeVarint s 0 with
  | error f =>
    rw [hd] at hscan
    rw [sliceAddress_eq_iff.2 (.parseFault hd)]
    exact hscan.imp fun _ => And.right
  | ok r =>
    rw [hd] at hscan
    obtain ⟨k, u, -, hk, hrun, hends⟩ := hscan
    cases r with
    | err e info =>
      rw [sliceAddress_eq_iff.2 (.parseErr hd)]
      have hlatched : latched (startScan .ms 0 s) = some .slice := hcmd
      rw [ScanEnds, hlatched] at hends
      exact ⟨k, u, by omega, hrun, hends⟩
    | ok v p =>
      obtain ⟨hsame, -, rfl, rfl⟩ := hends.2 rfl
      have hstep := checkStep_after_scan hcmd (u := u) hsame hd
      have hrun' : engineRun (k + 1) (startScan .ms 0 s) = engineRun 1 u := engineRun_add hrun
      cases hslice : sliceAddress s with
      | error f =>
        rw [hslice] at hstep
        exact ⟨k + 1, hrun'.trans (by rw [engineRun, hstep])⟩
      | ok r =>
        rw [hslice] at hstep
        exact ⟨k + 1, completeSlice r u, by omega, hrun'.trans (run_one hstep 0), completeSlice_sameButScan r hsame⟩

/-- Settles O17: the run does what `SliceAddress` answers, and the function stops only at an unwritten byte it reads. -/
theorem sliceRunsToItsEffect : Obligations.SliceRunsToItsEffect := by
  intro s hword
  have hcmd : latched s = some .slice := latched_of_decode (by rw [hword]; decide)
  refine ⟨rfl, fun t ht => ?_, fun hN hwritten => ?_⟩
  · have hrun := slice_from_start hcmd
    cases hslice : sliceAddress s with
    | error f => simp [sliceEffect, hslice] at ht
    | ok r =>
      cases (sliceEffect_eq_completeSlice hslice).symm.trans ht
      rw [hslice] at hrun
      exact hrun
  · cases hslice : sliceAddress s with
    | ok r => exact ⟨_, sliceEffect_eq_completeSlice hslice⟩
    | error f =>
      obtain ⟨-, i, hi, hnone⟩ := sliceAddress_error hslice hN
      obtain ⟨b, hb⟩ := hwritten i hi
      simp [hb] at hnone

/-! ## `CHKCMP` -/

/-- The word of a command is the only one that decodes to it (R63, R65). -/
theorem decode_eq_ok_iff {c : Word} {i : Instr} (hi : i.wf = true) : decode c = .ok i ↔ c = encode i :=
  ⟨fun h => (encodeDecodeAgree c i h).2.symm, fun h => h ▸ decodeEncodeRoundTrip i hi⟩

/-- `CHKCMP` without a slice (R91). -/
theorem exec_chkcmp_of_not_svalid {s : State} (h : s.svalid ≠ true) :
    exec .chkcmp s = .next { s with cmatch := false, err := .noSlice, errinfo := 0, phase := .idle, done := true } := by
  rcases execChkcmp_cases s with ⟨_, g⟩ | ⟨hs, _⟩ | ⟨hs, _⟩
  · exact g
  · exact absurd hs h
  · exact absurd hs h

/-- `CHKCMP` of a slice: `CMATCH` and the code say whether `CHK` is `DIGEST`, the mask which bytes differ (R91). -/
theorem exec_chkcmp_of_svalid {s : State} (h : s.svalid = true) :
    exec .chkcmp s = .next { s with
      cmatch := decide (s.chk = s.digest), err := if s.chk = s.digest then .noError else .checksumMismatch,
      errinfo := BitVec.ofNat 32 (differenceMask s.chk s.digest), phase := .idle, done := true } := by
  rcases execChkcmp_cases s with ⟨hs, _⟩ | ⟨_, hm, g⟩ | ⟨_, hm, g⟩
  · cases h.symm.trans hs
  · have heq := differenceMask_zero.1 hm
    rw [if_pos heq, hm, decide_eq_true heq]
    exact g
  · have hne := mt differenceMask_zero.2 hm
    rw [if_neg hne, decide_eq_false hne]
    exact g

/-- Bit `j` of `ERRINFO` after a comparison says that byte `j` differs (R91). -/
theorem getLsbD_differenceMask (c d : Word) (j : Nat) :
    (BitVec.ofNat 32 (differenceMask c d)).getLsbD j = true ↔
      j < 4 ∧ c.extractLsb' (8 * j) 8 ≠ d.extractLsb' (8 * j) 8 := by
  rw [BitVec.getLsbD_ofNat, Bool.and_eq_true, decide_eq_true_iff, differenceMask_testBit]
  exact ⟨And.right, fun h => ⟨by omega, h⟩⟩

/-- `ERRINFO` after a comparison is 0 exactly for equal words (R91). -/
theorem ofNat_differenceMask_eq_zero {c d : Word} : BitVec.ofNat 32 (differenceMask c d) = 0 ↔ c = d := by
  have hlt := differenceMask_lt c d
  rw [← BitVec.toNat_inj, BitVec.toNat_ofNat, Nat.mod_eq_of_lt (by omega)]
  exact differenceMask_zero

/-- Settles O14: the three cases are the two equations of `CHKCMP`, the second by whether `CHK` is `DIGEST`. -/
theorem chkcmpCompletes : Obligations.ChkcmpCompletes := by
  refine ⟨fun s => ?_, fun c => decode_eq_ok_iff rfl⟩
  by_cases hs : s.svalid = true
  · refine ⟨_, exec_chkcmp_of_svalid hs, rfl, fun hf => ?_, fun _ heq => ?_, fun _ hne => ?_⟩
    · cases hs.symm.trans hf
    · exact ⟨decide_eq_true heq, if_pos heq, ofNat_differenceMask_eq_zero.2 heq⟩
    · exact ⟨decide_eq_false hne, if_neg hne, mt ofNat_differenceMask_eq_zero.1 hne, getLsbD_differenceMask _ _⟩
  · exact ⟨_, exec_chkcmp_of_not_svalid hs, rfl, fun _ => ⟨rfl, rfl, rfl⟩, fun ht => absurd ht hs,
      fun ht => absurd ht hs⟩

/-- Settles O15: the mask has the bits of 2^j. -/
theorem oneMutatedByteGivesOneMaskBit : Obligations.OneMutatedByteGivesOneMaskBit := by
  intro s j hs hj hdiff hsame
  have hne : s.chk ≠ s.digest := fun h => hdiff (by rw [h])
  have hmask : differenceMask s.chk s.digest = 2 ^ j := by
    refine Nat.eq_of_testBit_eq fun k => ?_
    rw [Nat.testBit_two_pow, Bool.eq_iff_iff, differenceMask_testBit, decide_eq_true_iff]
    constructor
    · rintro ⟨hk, hk'⟩
      by_contra hjk
      exact hk' (hsame k hk (Ne.symm hjk))
    · rintro rfl
      exact ⟨hj, hdiff⟩
  rw [exec_chkcmp_of_svalid hs, if_neg hne, hmask, decide_eq_false hne]

/-! ## A `RUN` statement on an idle block -/

/-- Engine runs from states that agree but for the host's side agree but for it (R53). -/
theorem engineRun_sameAnswer {s t : State} (h : SameButHostSide s t) (k : Nat) :
    SameAnswer (engineRun k s) (engineRun k t) := by
  induction k generalizing s t with
  | zero => exact .next h
  | succ k ih =>
    have hstep := engineStep_withHostSide s t
    rw [← sameButHostSide_iff.1 h] at hstep
    simp only [engineRun]
    generalize engineStep s = o, engineStep t = p at hstep
    cases hstep with
    | next h => exact ih h
    | fault f => exact .fault f

/-- With `turns` empty a run of the engine is a run of the machine, and the host waits (R125, log entry 3). -/
theorem core_run_of_engineRun {k : Nat} {s u : State} (h : engineRun k s = .next u) (ht : s.turns = []) :
    (∃ n, core.run n s = .next u) ∧ u.script = s.script ∧ u.turns = [] := by
  induction k generalizing s with
  | zero => cases h; exact ⟨⟨0, rfl⟩, rfl, ht⟩
  | succ k ih =>
    by_cases hp : s.phase = .idle
    · rw [idle_run hp] at h
      cases h
      exact ⟨⟨0, rfl⟩, rfl, ht⟩
    · rw [engineRun] at h
      cases he : engineStep s with
      | next t =>
        rw [he] at h
        obtain ⟨-, -, -, -, -, -, hscript, hturns, -, -⟩ := engineStep_frame he
        obtain ⟨⟨n, hn⟩, hkeep⟩ := ih h (hturns.trans ht)
        obtain ⟨-, -, engineMoves, -⟩ := stepIsTheMoversMove
        exact ⟨⟨n + 1, (core_run_succ ((engineMoves s ht hp).trans he) n).trans hn⟩, hscript ▸ hkeep⟩
      | fault f => simp [he] at h
      | refused r => simp [he] at h

/-- The last read of a `WAIT`, with `turns` empty: the idle block answers, and the host goes on (R69). -/
theorem step_wait_idle {s : State} {rest : List HostOp} (hp : s.phase = .idle) (ht : s.turns = [])
    (hs : s.script = .wait :: rest) :
    step s = .next { s with script := rest, responses := .read .ok (statusWord s) :: s.responses } := by
  obtain ⟨-, -, -, hostMoves⟩ := stepIsTheMoversMove
  obtain ⟨-, -, hostWaits, -⟩ := hostMoveIsItsNextTransaction s
  rw [hostMoves s ht hp, hostWaits rest hs, if_pos hp]

/-- A `RUN` statement takes an idle block, but for the host's side, to where the engine takes the accepted word (R69,
R93). -/
theorem run_statement {s u : State} {c : Word} {rest : List HostOp} {k : Nat} (hp : s.phase = .idle) (ht : s.turns = [])
    (hs : s.script = HostStmt.expand (.run c) ++ rest) (hrun : engineRun k (accept c s) = .next u)
    (hu : u.phase = .idle) :
    ∃ n t, core.run n s = .next t ∧ t.script = rest ∧ t.turns = [] ∧ SameButHostSide u t := by
  have haccept := step_taken_write hp ht hs (target_cmd _) rfl
  have hengine := engineRun_sameAnswer (s := accept c s)
    (t := { accept c s with script := .wait :: rest, responses := .write .ok :: s.responses }) rfl k
  rw [hrun] at hengine
  obtain ⟨w, hw, hsame⟩ := hengine.exists_next
  obtain ⟨⟨n, hn⟩, hscript, hturns⟩ := core_run_of_engineRun hw ht
  have hidle : w.phase = .idle := by rw [hsame]; exact hu
  have hend := (core_run_add hn).trans (core_run_succ (step_wait_idle hidle hturns hscript) 0)
  exact ⟨_, _, (core_run_succ haccept _).trans hend, rfl, hturns, hsame.trans rfl⟩

/-! ## The address pipeline -/

/-- The result registers hold the slices (R89). -/
structure HoldsSlices (x : Slices) (s : State) : Prop where
  value : s.value.toNat = x.pfx
  consumed : s.consumed.toNat = x.p
  bodyLen : s.bodyLen.toNat = x.bodyLen
  spend : s.spend = keyWords x.spend
  view : s.view = keyWords x.view
  chk : s.chk = wordAt x.chk 0
  svalid : s.svalid = true

/-- The slices fit the registers they are latched in (R25, R26, R28, R82). -/
theorem completeSlice_holdsSlices {s : State} {x : Slices} (h : sliceAddress s = .ok (.ok x)) :
    HoldsSlices x (completeSlice (.ok x) s) := by
  obtain ⟨hd, hl, bs, -, hx⟩ := sliceAddress_ok h
  obtain ⟨-, -, -, hfits, -⟩ := decodeVarint_spec hd
  have hvalue : x.pfx < 2 ^ 64 := hfits.trans_le (Nat.pow_le_pow_right (by omega) (W_le s.params))
  have hlen := s.len.isLt
  have hbody : x.bodyLen = x.p + 64 := congrArg Slices.bodyLen hx
  exact
    { value := Nat.mod_eq_of_lt hvalue
      consumed := Nat.mod_eq_of_lt (by omega)
      bodyLen := Nat.mod_eq_of_lt (by omega)
      spend := rfl
      view := rfl
      chk := rfl
      svalid := rfl }

theorem SameButScan.holdsSlices {s t : State} {x : Slices} (h : SameButScan s t) (g : HoldsSlices x s) :
    HoldsSlices x t := by
  rw [h]
  exact { g with }

theorem SameButHostSide.holdsSlices {s t : State} {x : Slices} (h : SameButHostSide s t) (g : HoldsSlices x s) :
    HoldsSlices x t := by
  rw [h]
  exact { g with }

/-- `RUN SLICE` on an idle block whose input slices leaves the slices in their registers (R89, R92). -/
theorem run_slice {s : State} {x : Slices} {rest : List HostOp} (hp : s.phase = .idle) (ht : s.turns = [])
    (hx : sliceAddress s = .ok (.ok x)) (hs : s.script = HostStmt.expand (.run (encode .slice)) ++ rest) :
    ∃ n t, core.run n s = .next t ∧ t.script = rest ∧ t.turns = [] ∧ t.phase = .idle ∧ HoldsSlices x t := by
  have hdecode : decode (accept (encode .slice) s).lcmd = .ok .slice := decodeEncodeRoundTrip .slice rfl
  have hx' : sliceAddress (accept (encode .slice) s) = .ok (.ok x) := by
    rw [← hx]
    exact sliceAddress_congr rfl rfl rfl
  have hslice := slice_from_start (latched_of_decode hdecode)
  rw [hx'] at hslice
  obtain ⟨k, u, -, hrun, hsame⟩ := hslice
  have hidle : u.phase = .idle := by rw [hsame]; rfl
  have hstart : engineStep (accept (encode .slice) s) = .next (startScan .ms 0 (accept (encode .slice) s)) := by
    simp only [engineStep, accept_phase, hdecode]
    rfl
  obtain ⟨n, t, hn, hscript, hturns, hhost⟩ := run_statement hp ht hs ((run_one hstart k).trans hrun) hidle
  refine ⟨n, t, hn, hscript, hturns, by rw [hhost]; exact hidle, ?_⟩
  exact hhost.holdsSlices (hsame.holdsSlices (completeSlice_holdsSlices hx'))

/-- `RUN CHKCMP` on an idle block that holds slices compares `DIGEST` with their checksum and keeps them (R91, R92). -/
theorem run_chkcmp {s : State} {x : Slices} {rest : List HostOp} (hp : s.phase = .idle) (ht : s.turns = [])
    (hx : HoldsSlices x s) (hs : s.script = HostStmt.expand (.run (encode .chkcmp)) ++ rest) :
    ∃ n t, core.run n s = .next t ∧ t.script = rest ∧ t.phase = .idle ∧ HoldsSlices x t ∧
      (t.cmatch = true ↔ s.digest = wordAt x.chk 0) ∧
      t.err = (if s.digest = wordAt x.chk 0 then .noError else .checksumMismatch) := by
  have hdecode : decode (accept (encode .chkcmp) s).lcmd = .ok .chkcmp := decodeEncodeRoundTrip .chkcmp rfl
  have hstep : engineStep (accept (encode .chkcmp) s) = exec .chkcmp (accept (encode .chkcmp) s) := by
    simp only [engineStep, accept_phase, hdecode]
  rw [exec_chkcmp_of_svalid (s := accept (encode .chkcmp) s) hx.svalid] at hstep
  obtain ⟨n, t, hn, hscript, -, hhost⟩ := run_statement hp ht hs (run_one hstep 0) rfl
  refine ⟨n, t, hn, hscript, by rw [hhost], hhost.holdsSlices { hx with }, ?_, ?_⟩
  · rw [hhost, ← hx.chk, eq_comm (a := s.digest)]
    exact decide_eq_true_iff
  · rw [hhost, ← hx.chk]
    simp only [eq_comm (a := s.digest)]
    rfl

/-- Settles O59: `RUN SLICE` latches the slices, `SETDIG` writes the digest beside them, `RUN CHKCMP` compares. -/
theorem addressPipelineChecksDigest : Obligations.AddressPipelineChecksDigest := by
  intro s x d hp ht hx hs
  obtain ⟨n₁, t₁, hrun₁, hscript₁, hturns₁, hidle₁, hslices₁⟩ := run_slice hp ht hx hs
  have hdigest := step_taken_write hidle₁ hturns₁ hscript₁ (target_digest _) rfl
  obtain ⟨n₂, t₂, hrun₂, hscript₂, hidle₂, hslices₂, hmatch, herr⟩ :=
    run_chkcmp (s := { t₁ with digest := d, script := _, responses := _ }) (rest := []) hidle₁ hturns₁
      { hslices₁ with } rfl
  obtain ⟨hvalue, hconsumed, hbodyLen, hspend, hview, hchk, hsvalid⟩ := hslices₂
  exact ⟨_, t₂, (core_run_add hrun₁).trans ((core_run_succ hdigest _).trans hrun₂), ⟨hscript₂, hidle₂⟩, hvalue,
    hconsumed, hbodyLen, hspend, hview, hchk, hsvalid, hmatch, herr⟩

end Sys2Proof.Machine

namespace Sys2Proof.Machine

/-! # Proofs of the family "control": what each command does, what a write does, and that every command ends

In `DECODE` the engine's step is the latched command's DecodeStep (`engineStep_decode`) or the completion of an illegal
word (`engineStep_illegal`). Outside `CLEAR` that step leaves every result register alone (`exec_results`), so `DROP`
falls by `CLEAR` or reset only. A write of a busy block is dropped (`busWrite_dropped`) where the idle block takes it
(`busWrite_taken`). The runs of `VARINT` and `SLICE` end because they reach the rules' effects, which end the command. -/

/-! ## The engine's step by `PHASE` -/

/-- In `IDLE` the engine has no step (R96, log entry 8). -/
theorem engineStep_idle {s : State} (hp : s.phase = .idle) : engineStep s = .next s := by
  simp only [engineStep, hp]

/-- In `DECODE` the engine's step is the latched command's (R96, R97). -/
theorem engineStep_decode {s : State} {i : Instr} (hp : s.phase = .decode) (hd : decode s.lcmd = .ok i) :
    engineStep s = exec i s := by
  simp only [engineStep, hp, hd]

/-- In `DECODE` a word that does not decode completes with its word as information (R101). -/
theorem engineStep_illegal {s : State} {e : Illegal} (hp : s.phase = .decode) (hd : decode s.lcmd = .error e) :
    engineStep s = .next { s with err := .illegalCommand, errinfo := s.lcmd, phase := .idle, done := true } := by
  simp only [engineStep, hp, hd, illegalStep, complete, completedVvalid, completedSvalid, completedCmatch,
    BitVec.ofNat_toNat, BitVec.setWidth_eq]

/-- Settles O10: one equation a phase. -/
theorem engineStepFollowsPhase : Obligations.EngineStepFollowsPhase := fun _ =>
  ⟨engineStep_idle, fun hp _ => engineStep_decode hp, engineStep_scan, engineStep_check⟩

/-- Settles O6: the step is the engine's, and the engine's is the command's. -/
theorem stepRunsDecodedCommand : Obligations.StepRunsDecodedCommand := by
  intro s i hp hd
  obtain ⟨engineTurn, -, engineMoves, -⟩ := stepIsTheMoversMove
  refine ⟨fun ht => ?_, fun rest ht => ?_⟩
  · rw [engineMoves s ht (by simp [hp]), engineStep_decode hp hd]
  · rw [engineTurn s rest ht]
    exact engineStep_decode hp hd

/-- A command word is one 32-bit word (R66), so placing it is its accept with the engine to move (log entry 13). -/
theorem withFetchWord_eq (s : State) (w : Word) :
    s.withFetchWord 32 w.toNat = { accept w s with turns := .engine :: s.turns } := by
  simp only [State.withFetchWord, Nat.mod_eq_of_lt w.isLt, BitVec.ofNat_toNat, BitVec.setWidth_eq]

/-- Settles O9: the placed word is latched in `DECODE`, the engine first in `turns`. -/
theorem fetchedWordRunsNext : Obligations.FetchedWordRunsNext := by
  intro s w i hd
  rw [withFetchWord_eq]
  exact (stepRunsDecodedCommand { accept w s with turns := .engine :: s.turns } i rfl hd).2 s.turns rfl

/-! ## Illegal words, `NOP` -/

/-- A word that is not legal does not decode (R63, R65). -/
theorem decode_of_illegal {c : Word} (h : legal c = false) : ∃ e, decode c = .error e := by
  cases hd : decode c with
  | error e => exact ⟨e, rfl⟩
  | ok i => simp [legal_iff_decodes.2 ⟨i, hd⟩] at h

/-- The `OP` values of the table are 1 and those without an operand, the others are 5 and up (R60). -/
theorem op_reserved (op : BitVec 4) : 5 ≤ op.toNat ↔ op ≠ 1 ∧ op.toNat ∉ [0, 2, 3, 4] := by
  revert op
  decide

/-- The three forms of an illegal word (R101). -/
theorem illegal_iff_fields {c : Word} : legal c = false ↔
    5 ≤ (opField c).toNat ∨ rsvField c ≠ 0 ∨ (offsetField c ≠ 0 ∧ (opField c).toNat ∈ [0, 2, 3, 4]) := by
  have hone : opField c = 1 → (opField c).toNat ∉ [0, 2, 3, 4] := fun h => by rw [h]; decide
  rw [← Bool.not_eq_true, legal_iff_fields, op_mem_operandless, op_reserved]
  tauto

/-- Settles O11: the negation of R63's formula, and the DecodeStep of a word that does not decode. -/
theorem illegalWordCompletes : Obligations.IllegalWordCompletes := by
  refine ⟨fun c => illegal_iff_fields, fun s hp hl => ?_, by decide, by decide, by decide⟩
  obtain ⟨e, hd⟩ := decode_of_illegal hl
  exact engineStep_illegal hp hd

/-- Settles O12: a completion of `NOP` keeps the valid bits, and its word is `encode .nop`. -/
theorem nopCompletes : Obligations.NopCompletes :=
  ⟨fun _ => rfl, fun _ => decode_eq_ok_iff rfl⟩

/-! ## What a command leaves alone -/

/-- Outside `CLEAR` a DecodeStep keeps every result register, `DROP`, `VVALID` and `SVALID` (R91, R97, R99). -/
theorem exec_results {i : Instr} {s t : State} (h : exec i s = .next t) (hi : i ≠ .clear) :
    t.value = s.value ∧ t.consumed = s.consumed ∧ t.bodyLen = s.bodyLen ∧ t.chk = s.chk ∧ t.spend = s.spend ∧
    t.view = s.view ∧ t.drop = s.drop ∧ t.vvalid = s.vvalid ∧ t.svalid = s.svalid := by
  cases i with
  | clear => exact absurd rfl hi
  | chkcmp =>
    obtain ⟨_, _, _, rfl, -⟩ := execChkcmp_next h
    exact ⟨rfl, rfl, rfl, rfl, rfl, rfl, rfl, rfl, rfl⟩
  | _ =>
    cases h
    exact ⟨rfl, rfl, rfl, rfl, rfl, rfl, rfl, rfl, rfl⟩

/-- Only the DecodeSteps of `CLEAR` and `CHKCMP` write `CMATCH` (R91, R97, R99, R100). -/
theorem exec_cmatch {i : Instr} {s t : State} (h : exec i s = .next t) (hclear : i ≠ .clear) (hchkcmp : i ≠ .chkcmp) :
    t.cmatch = s.cmatch := by
  cases i with
  | clear => exact absurd rfl hclear
  | chkcmp => exact absurd rfl hchkcmp
  | _ => cases h; rfl

/-- Settles O19: the frame of every DecodeStep, and of those that are no `CLEAR`. -/
theorem commandsFrame : Obligations.CommandsFrame := by
  intro i s t h
  obtain ⟨hparams, hbuf, hie, hlen, hdigest, hlcmd, hscript, hturns, hresponses, hdraws⟩ := exec_frame h
  exact ⟨fun a => by rw [hbuf], hbuf, hparams, hie, hlen, hdigest, hlcmd, hscript, hturns, hresponses, hdraws,
    exec_results h, exec_cmatch h⟩

/-! ## `CLEAR`, and what clears `DROP` -/

/-- A transaction's write never clears `DROP` (R94). -/
theorem busWrite_keeps_drop {a : Nat} {d : Word} {s : State} (h : s.drop = true) : (busWrite a d s).2.drop = true := by
  rcases busWrite_cases a d s with hw | ⟨_, hw⟩ | ⟨r, _, _, _, hw⟩ <;> rw [hw]
  · exact h
  · rfl
  · cases r <;> exact h

/-- A host move never clears `DROP` (R52, R94). -/
theorem hostStep_keeps_drop {s : State} (h : s.drop = true) : (hostStep s).drop = true := by
  have hread : ∀ a (u : State), (note (busRead a u)).drop = u.drop := fun a u => by rw [note, busRead_state]
  rcases hostStep_cases s with ⟨_, hs⟩ | ⟨a, rest, _, hs⟩ | ⟨a, d, rest, _, hs⟩ | ⟨rest, _, _, hs⟩ | ⟨rest, _, _, hs⟩ <;>
    rw [hs]
  · exact h
  · exact (hread a _).trans h
  · exact busWrite_keeps_drop (s := { s with script := rest }) h
  · exact (hread _ s).trans h
  · exact (hread _ _).trans h

/-- A `SCAN` step keeps `DROP` (R78, R98). -/
theorem scanStep_drop {s t : State} (h : scanStep s = .next t) : t.drop = s.drop := by
  rcases scanStep_next h with ⟨_, rfl⟩ | ⟨b, _, _, ⟨_, rfl⟩ | ⟨_, _, rfl⟩ | ⟨_, _, rfl⟩⟩
  · rfl
  · rfl
  · rfl
  · rcases finishScan_cases (consumeByte b s) with ⟨_, hf⟩ | ⟨_, hf⟩ <;> rw [hf] <;> rfl

/-- An engine step keeps `DROP`, or it is `CLEAR`'s (R98, R100). -/
theorem engineStep_drop {s t : State} (h : engineStep s = .next t) :
    t.drop = s.drop ∨ (s.phase = .decode ∧ s.lcmd = encode .clear) := by
  rcases engineStep_next h with ⟨_, rfl⟩ | ⟨hp, i, hd, he⟩ | ⟨_, _, rfl⟩ | ⟨_, he⟩ | ⟨_, he⟩
  · exact .inl rfl
  · by_cases hi : i = .clear
    · exact .inr ⟨hp, (decode_eq_ok_iff rfl).1 (hi ▸ hd)⟩
    · obtain ⟨-, -, -, -, -, -, hdrop, -⟩ := exec_results he hi
      exact .inl hdrop
  · exact .inl rfl
  · exact .inl (scanStep_drop he)
  · rcases checkStep_next he with ⟨_, rfl⟩ | ⟨_, _, _, rfl⟩ <;> exact .inl rfl

/-- An engine step that clears `DROP` is `CLEAR`'s (R100). -/
theorem clear_of_engineStep_drop {s t : State} (h : engineStep s = .next t) (hs : s.drop = true) (ht : t.drop = false) :
    s.phase = .decode ∧ s.lcmd = encode .clear :=
  (engineStep_drop h).resolve_left fun hsame => by simp [hs, ht] at hsame

/-- After `CLEAR`, `STATUS` reads as after reset but for `DONE` (R23, R100). -/
theorem statusWord_cleared (s : State) : statusWord (complete (some .clear) .noError 0 (clearAll s)) = 0x00000002 := by
  have hflags : statusWord (complete (some .clear) .noError 0 (clearAll s)) =
      statusWord { State.reset with done := true } := rfl
  rw [hflags]
  decide

/-- Settles O13: the effect is R100's own, and of the movers only the engine and `RST` can clear `DROP`. -/
theorem clearCompletes : Obligations.ClearCompletes := by
  refine ⟨fun s => ⟨_, rfl, rfl, statusWord_cleared s⟩, fun c => decode_eq_ok_iff rfl, fun s t h hs ht => ?_⟩
  rcases step_next h with ⟨rest, _, rfl⟩ | ⟨rest, hturn, he⟩ | ⟨rest, hturn, _⟩ | ⟨hturn, _, he⟩ | ⟨_, _, rfl⟩
  · simp [hostStep_keeps_drop (s := { s with turns := rest }) hs] at ht
  · obtain ⟨hp, hcmd⟩ := clear_of_engineStep_drop (s := { s with turns := rest }) he hs ht
    exact .inl ⟨hp, hcmd, .inr ⟨rest, hturn⟩⟩
  · exact .inr ⟨rest, hturn⟩
  · obtain ⟨hp, hcmd⟩ := clear_of_engineStep_drop he hs ht
    exact .inl ⟨hp, hcmd, .inl hturn⟩
  · simp [hostStep_keeps_drop hs] at ht

/-! ## Writes, busy and idle -/

/-- A write that passes the checks of R47 and is of a droppable register is dropped while a command runs (R94). -/
theorem busWrite_dropped {s : State} {a : Nat} {d : Word} {r : Reg} (h : target s.params.N a = some r)
    (hr : writeRefused r d s = false) (hdrop : r.droppable = true) (hp : s.phase ≠ .idle) :
    busWrite a d s = (.write .ok, dropWrite s) := by
  simp only [busWrite, h, hr, hdrop, is_busy hp]
  rfl

/-- A write of `LEN` is refused for a value above N alone (R47). -/
theorem writeRefused_len (d : Word) (s : State) : writeRefused .len d s = decide (s.params.N < d.toNat) := rfl

/-- Settles O37: the accept of R93. -/
theorem commandIsAccepted : Obligations.CommandIsAccepted := fun _ c hp => busWrite_cmd_idle hp c

/-- Settles O38: each of the offsets reaches a droppable register, `CTRL` is no such register, reads do not look at
`PHASE`. -/
theorem busyWritesAreDropped : Obligations.BusyWritesAreDropped := by
  intro s d hp
  refine ⟨busWrite_dropped (target_cmd _) rfl rfl hp, busWrite_dropped (target_digest _) rfl rfl hp, fun hd => ?_,
    fun hd => ?_, fun k hk => busWrite_dropped (target_window _ hk) rfl rfl hp, busWrite_ctrl d s,
    fun a r ht => ⟨_, by rw [busRead_some ht]⟩⟩
  · exact busWrite_dropped (target_len _) (by rw [writeRefused_len, decide_eq_false (by omega)]) rfl hp
  · exact busWrite_refused (target_len _) (by rw [writeRefused_len, decide_eq_true hd])

/-- A word write gives each of its four bytes its lane and leaves every other byte alone (R49, R50). -/
theorem Memory.read_writeWord (m : Memory) (i : Nat) (d : Word) (a : Nat) :
    (m.writeWord i d).read a = if i ≤ a ∧ a < i + 4 then some (laneByte d (a - i)) else m.read a := by
  split
  next h =>
    obtain ⟨j, rfl⟩ := Nat.exists_eq_add_of_le h.1
    rw [Nat.add_sub_cancel_left]
    exact m.read_writeWord_lane i d (by omega)
  next h => exact m.read_writeWord_outside d (by omega)

/-- Settles O39: the taken writes of the idle block, with what they store read back. -/
theorem inputWritesInvalidate : Obligations.InputWritesInvalidate := by
  intro s d hp
  refine ⟨fun hd => ⟨d.setWidth 17, ?_, ?_⟩, fun k hk => ?_, busWrite_taken (target_digest _) rfl hp⟩
  · have hN := N_le s.params
    rw [BitVec.toNat_setWidth, Nat.mod_eq_of_lt (by omega)]
  · exact busWrite_taken (target_len _) (by rw [writeRefused_len, decide_eq_false (by omega)]) hp
  · exact ⟨busWrite_taken (target_window _ hk) rfl hp, s.buf.read_writeWord (4 * k) d⟩

/-! ## Every command ends -/

/-- The engine ends the command within `n` steps, at least one of them (R103). -/
def CompletesWithin (s : State) (n : Nat) : Prop :=
  ∃ k t, engineRun k s = .next t ∧ t.phase = .idle ∧ t.done = true ∧ 1 ≤ k ∧ k ≤ n

/-- A DecodeStep that ends the command (R97). -/
theorem CompletesWithin.of_step {s t : State} (h : engineStep s = .next t) (ht : t.phase = .idle ∧ t.done = true) :
    CompletesWithin s 1 :=
  ⟨1, t, run_one h 0, ht.1, ht.2, le_rfl, le_rfl⟩

/-- A DecodeStep that starts a run to a state whose command has ended, but for the scan registers (R78, R97). -/
theorem CompletesWithin.of_run {s v t u : State} {k n : Nat} (h : engineStep s = .next v)
    (hrun : engineRun k v = .next u) (hsame : SameButScan t u) (ht : t.phase = .idle ∧ t.done = true)
    (hk : 1 + k ≤ n) : CompletesWithin s n := by
  obtain ⟨-, -, hdone, -, -, -, -, -, -, -, -, -, -, -, -, -, -, hphase⟩ := scan_fields hsame
  exact ⟨k + 1, u, (run_one h k).trans hrun, hphase.trans ht.1, hdone.trans ht.2, by omega, by omega⟩

/-- The effect of `VARINT` ends the command (R79). -/
theorem varintEffect_ends {s t : State} {off : Nat} (h : varintEffect off s = .ok t) :
    t.phase = .idle ∧ t.done = true := by
  unfold varintEffect at h
  split at h <;> cases h <;> exact ⟨rfl, rfl⟩

/-- The effect of `SLICE` ends the command (R89). -/
theorem sliceEffect_ends {s t : State} (h : sliceEffect s = .ok t) : t.phase = .idle ∧ t.done = true := by
  unfold sliceEffect at h
  split at h <;> cases h <;> exact ⟨rfl, rfl⟩

section completes
variable {s : State} (hp : s.phase = .decode) (hN : s.len.toNat ≤ s.params.N)
  (hwritten : ∀ i, CommandReads s i → ∃ b, s.buf.read i = some b)

include hp hN hwritten

/-- `VARINT` ends: the bytes its parse reads were written, so it has an effect, which its run reaches (R79, R103). -/
theorem varint_completes {off : Nat} (hd : decode s.lcmd = .ok (.varint off)) :
    CompletesWithin s (if off < s.len.toNat then 1 + (s.len.toNat - off + 1) else 2) := by
  have hoff := decode_varint_le hd
  obtain ⟨-, hword⟩ := encodeDecodeAgree _ _ hd
  obtain ⟨-, hword'⟩ := encodeDecodeAgree _ _ (decode_varint_word hoff)
  obtain ⟨hstart, hrun, hanswers⟩ := varintRunsToItsEffect s off (hword.symm.trans hword') hoff
  obtain ⟨t, ht⟩ := hanswers hN fun i hi => hwritten i (.inl ⟨off, hd, hi⟩)
  obtain ⟨k, u, hk, hu, hsame⟩ := hrun t ht
  refine .of_run ((engineStep_decode hp hd).trans hstart) hu hsame (varintEffect_ends ht) ?_
  by_cases hlt : off < s.len.toNat
  · rw [if_pos hlt] at hk ⊢
    omega
  · rw [if_neg hlt] at hk ⊢
    omega

/-- `SLICE` ends: the bytes it reads were written, so it has an effect, which its run reaches (R89, R103). -/
theorem slice_completes (hd : decode s.lcmd = .ok .slice) : CompletesWithin s (1 + (s.len.toNat + 1) + 1) := by
  obtain ⟨hstart, hrun, hanswers⟩ := sliceRunsToItsEffect s ((decode_eq_ok_iff rfl).1 hd)
  obtain ⟨t, ht⟩ := hanswers hN fun i hi => hwritten i (.inr ⟨hd, hi⟩)
  obtain ⟨k, u, hk, hu, hsame⟩ := hrun t ht
  exact .of_run ((engineStep_decode hp hd).trans hstart) hu hsame (sliceEffect_ends ht) (by omega)

end completes

/-- Settles O50: by the latched word; `VARINT` and `SLICE` run to their effects, the others end with their DecodeStep. -/
theorem everyCommandCompletes : Obligations.EveryCommandCompletes := by
  intro s hp hN hwritten
  cases hd : decode s.lcmd with
  | error e => exact CompletesWithin.of_step (engineStep_illegal hp hd) ⟨rfl, rfl⟩
  | ok i =>
    have hstep := engineStep_decode hp hd
    cases i with
    | nop => exact CompletesWithin.of_step hstep ⟨rfl, rfl⟩
    | varint off => exact varint_completes hp hN hwritten hd
    | slice => exact slice_completes hp hN hwritten hd
    | chkcmp =>
      obtain ⟨hchkcmp, -⟩ := chkcmpCompletes
      obtain ⟨t, hexec, hends, -⟩ := hchkcmp s
      exact CompletesWithin.of_step (hstep.trans hexec) (by rw [hends]; exact ⟨rfl, rfl⟩)
    | clear => exact CompletesWithin.of_step hstep ⟨rfl, rfl⟩

end Sys2Proof.Machine

namespace Sys2Proof.Machine

/-! # Proofs of the family "exceptions": a failed command, and how long its error stays

`BusyMove` says once how the engine's step moves a running command: to its next step, to a successful end, or to a
failed one, which is the completion of R98 with a code. That errors are precise (R109) is then read off its four
cases, for a run by induction on its steps. -/

/-! ## How an engine step moves a running command -/

/-- How an engine step moves the command that runs in `s` (R96, R97). It fails by the completion of what `LCMD` holds:
outside `DECODE`, or in it for an illegal word; `CHKCMP`, which fails in `DECODE`, clears `CMATCH` first (R91). -/
inductive BusyMove (s : State) : State → Prop
  | runsOn {t : State} (hp : t.phase ≠ .idle) (hsame : SameButStatus s t) : BusyMove s t
  | succeeds {t : State} (hp : t.phase = .idle) (he : t.err = .noError) : BusyMove s t
  | fails {cmd : Option Instr} {e : ErrCode} {n : Nat} (hcmd : latched s = cmd) (he : e ≠ .noError)
      (hdecode : s.phase = .decode → cmd = none) : BusyMove s (complete cmd e n s)
  | comparisonFails {e : ErrCode} {n : Nat} (hcmd : latched s = some .chkcmp) (he : e ≠ .noError) :
      BusyMove s (complete (some .chkcmp) e n { s with cmatch := false })

/-- The DecodeStep of the latched command (R97): of the commands `CHKCMP` alone can fail in it. -/
theorem busyMove_exec {s t : State} {i : Instr} (hd : decode s.lcmd = .ok i) (h : exec i s = .next t) :
    BusyMove s t := by
  cases i with
  | nop => cases h; exact .succeeds rfl rfl
  | varint off => cases h; exact .runsOn nofun rfl
  | slice => cases h; exact .runsOn nofun rfl
  | clear => cases h; exact .succeeds rfl rfl
  | chkcmp =>
    have hcmd := latched_of_decode hd
    replace h : execChkcmp s = .next t := h
    rcases execChkcmp_cases s with ⟨_, g⟩ | ⟨_, _, g⟩ | ⟨_, _, g⟩ <;> cases g.symm.trans h
    · exact .comparisonFails hcmd nofun
    · exact .succeeds rfl rfl
    · exact .comparisonFails hcmd nofun

/-- A `SCAN` step: it fails at the end of the input or by overflow (R73, R74, R78). -/
theorem busyMove_scanStep {s t : State} (hp : s.phase = .scan) (h : scanStep s = .next t) : BusyMove s t := by
  have hscan : s.phase ≠ .decode := by simp [hp]
  rcases scanStep_next h with ⟨_, rfl⟩ | ⟨b, _, _, ⟨_, rfl⟩ | ⟨_, _, rfl⟩ | ⟨_, _, rfl⟩⟩
  · exact .fails rfl nofun (absurd · hscan)
  · exact .fails rfl nofun (absurd · hscan)
  · exact .runsOn (by simp [hp]) rfl
  · rcases finishScan_cases (consumeByte b s) with ⟨_, g⟩ | ⟨_, g⟩ <;> rw [g]
    · exact .succeeds rfl rfl
    · exact .runsOn nofun rfl

/-- A `CHECK` step: it fails on a short input (R83, R88). -/
theorem busyMove_checkStep {s t : State} (hp : s.phase = .check) (h : checkStep s = .next t) : BusyMove s t := by
  rcases checkStep_next h with ⟨_, rfl⟩ | ⟨_, _, _, rfl⟩
  · exact .fails rfl nofun (by simp [hp])
  · exact .succeeds rfl rfl

/-- The engine's step by `PHASE` (R96). -/
theorem busyMove_engineStep {s t : State} (hp : s.phase ≠ .idle) (h : engineStep s = .next t) : BusyMove s t := by
  rcases engineStep_next h with ⟨hidle, _⟩ | ⟨_, _, hd, he⟩ | ⟨_, hcmd, rfl⟩ | ⟨hscan, he⟩ | ⟨hcheck, he⟩
  · exact absurd hidle hp
  · exact busyMove_exec hd he
  · exact .fails hcmd nofun fun _ => rfl
  · exact busyMove_scanStep hscan he
  · exact busyMove_checkStep hcheck he

/-! ## Errors are precise (R109) -/

theorem SameButStatus.trans {s t u : State} (h : SameButStatus s t) (g : SameButStatus t u) : SameButStatus s u := by
  unfold SameButStatus at *
  rw [g, h]

/-- An engine step that does not end the command in success keeps all but `STATUS`, `ERRINFO` and the hidden registers
(R109). -/
theorem BusyMove.sameButStatus {s t : State} (h : BusyMove s t) (ht : t.phase = .idle → t.err ≠ .noError) :
    SameButStatus s t := by
  cases h with
  | runsOn _ hsame => exact hsame
  | succeeds hp he => exact absurd he (ht hp)
  | fails => rfl
  | comparisonFails => rfl

/-- A run of one step and more is that step and the run from there (R96). -/
theorem engineRun_succ_next {k : Nat} {s u : State} (h : engineRun (k + 1) s = .next u) :
    ∃ t, engineStep s = .next t ∧ engineRun k t = .next u := by
  rw [engineRun] at h
  split at h
  next t ht => exact ⟨t, ht, h⟩
  all_goals cases h

/-- A run of a busy engine that ends in an error changes no more than each of its steps (R109). -/
theorem engineRun_sameButStatus {k : Nat} {s t : State} (hp : s.phase ≠ .idle) (h : engineRun k s = .next t)
    (ht : t.phase = .idle) (he : t.err ≠ .noError) : SameButStatus s t := by
  induction k generalizing s with
  | zero => cases h; exact absurd ht hp
  | succ k ih =>
    obtain ⟨u, hstep, hrun⟩ := engineRun_succ_next h
    have hmove := busyMove_engineStep hp hstep
    by_cases hu : u.phase = .idle
    · cases (idle_run hu k).symm.trans hrun
      exact hmove.sameButStatus fun _ => he
    · exact (hmove.sameButStatus (absurd · hu)).trans (ih hu hrun)

/-- Settles O47: the run by its steps, the last step by the two ways a command fails. -/
theorem errorsArePrecise : Obligations.ErrorsArePrecise := by
  refine ⟨fun k s t => engineRun_sameButStatus, fun s t hp h ht he => ?_⟩
  cases busyMove_engineStep hp h with
  | runsOn hbusy => exact absurd ht hbusy
  | succeeds _ hok => exact absurd hok he
  | fails hcmd herr hdecode =>
    refine ⟨rfl, fun off hd => ?_, fun hd => ?_, fun hd hp' => ?_⟩
    · cases hcmd.symm.trans (latched_of_decode hd)
      rw [complete_varint_err off herr]
      exact ⟨rfl, rfl, rfl⟩
    · cases hcmd.symm.trans (latched_of_decode hd)
      rw [complete_slice_err herr]
      exact ⟨rfl, rfl, rfl⟩
    · cases (hdecode hp').symm.trans (hcmd.symm.trans (latched_of_decode hd))
  | comparisonFails hcmd =>
    refine ⟨rfl, fun off hd => ?_, fun hd => ?_, fun _ _ => ⟨rfl, rfl, rfl⟩⟩
    · cases hcmd.symm.trans (latched_of_decode hd)
    · cases hcmd.symm.trans (latched_of_decode hd)

/-! ## An error stays visible (R110) -/

/-- The error is no part of the host's side. -/
theorem SameButHostSide.error {s t : State} (h : SameButHostSide s t) :
    t.phase = s.phase ∧ t.err = s.err ∧ t.errinfo = s.errinfo := by
  rw [sameButHostSide_iff.1 h]
  exact ⟨rfl, rfl, rfl⟩

/-- A host move keeps `ERR` and `ERRINFO`, or it is an accept, which clears both (R93, R110). -/
theorem hostStep_error (s : State) :
    ((hostStep s).err = s.err ∧ (hostStep s).errinfo = s.errinfo) ∨
    ((hostStep s).phase = .decode ∧ (hostStep s).err = .noError ∧ (hostStep s).errinfo = 0) := by
  rcases hostStep_effect s with hside | ⟨_, u, hwrite, hside⟩ <;> obtain ⟨hphase, herr, hinfo⟩ := hside.error
  · exact .inl ⟨herr, hinfo⟩
  · cases hwrite with
    | cmd => exact .inr ⟨hphase, herr, hinfo⟩
    | len => exact .inl ⟨herr, hinfo⟩
    | digest => exact .inl ⟨herr, hinfo⟩
    | window => exact .inl ⟨herr, hinfo⟩

/-- Settles O48: an idle engine has no step, so the host moves or `RST` does. -/
theorem errorStaysUntilAccept : Obligations.ErrorStaysUntilAccept := by
  intro s t hp h
  rcases step_next h with ⟨rest, _, rfl⟩ | ⟨rest, _, he⟩ | ⟨rest, hturn, _⟩ | ⟨_, hbusy, _⟩ | ⟨_, _, rfl⟩
  · exact (hostStep_error { s with turns := rest }).imp_right .inl
  · cases (engineStep_idle (s := { s with turns := rest }) hp).symm.trans he
    exact .inl ⟨rfl, rfl⟩
  · exact .inr (.inr ⟨rest, hturn⟩)
  · exact absurd hp (busy_eq_true.1 hbusy)
  · exact (hostStep_error s).imp_right .inl

end Sys2Proof.Machine

namespace Sys2Proof.Machine

/-! # Proofs of the family "reset and hazards": `RST`, the model fault, and that a `WAIT` ends

Only an engine step that reads can stop the machine: its answer is a next state, or the fault of a byte it read
(`step_answers`). On a written input there is none, so a busy engine, whichever of its phases it is in, runs to the end of
its command (`reachesIdle`), and the `WAIT` behind it ends. The functions of R70 and R82 stop at an unwritten byte too,
and the engine with them, by the runs of the families "varint" and "slice". -/

/-- Settles O45: the branch of `RST` in `step` does not look at what runs. -/
theorem resetAbortsAndClears : Obligations.ResetAbortsAndClears := by
  intro s rest ht
  simp only [step, ht, resetBlock]

/-! ## The functions and the engine stop at the same byte -/

/-- The effect of `VARINT` stops where its function does (R79, R118). -/
theorem varintEffect_error_iff {s : State} {off : Nat} {f : Fault} :
    varintEffect off s = .error f ↔ decodeVarint s off = .error f := by
  cases hd : decodeVarint s off with
  | error g => simp only [varintEffect, hd, Except.error.injEq]
  | ok r => cases r <;> simp only [varintEffect, hd, reduceCtorEq]

/-- The effect of `SLICE` stops where its function does (R89, R118). -/
theorem sliceEffect_error_iff {s : State} {f : Fault} : sliceEffect s = .error f ↔ sliceAddress s = .error f := by
  cases hslice : sliceAddress s with
  | error g => simp only [sliceEffect, hslice, Except.error.injEq]
  | ok r => simp only [sliceEffect_eq_completeSlice hslice, reduceCtorEq]

/-- With `LEN ≤ N` a parse that reads an unwritten byte stops with the model fault (R118). -/
theorem decodeVarint_of_unwritten {s : State} {off i : Nat} (hN : s.len.toNat ≤ s.params.N) (hi : ParseReads s off i)
    (hnone : s.buf.read i = none) : decodeVarint s off = .error .unwrittenByte := by
  cases hd : decodeVarint s off with
  | ok r => exact absurd hnone ((decodeVarint_spec hd).written hi)
  | error f =>
    obtain ⟨rfl, -⟩ := decodeVarint_error hd hN
    rfl

/-- Where `SliceAddress` answers, every byte it reads was written (R82, R118). -/
theorem SliceAnswer.written {s : State} {r : SliceResult} {i : Nat} (h : SliceAnswer s (.ok r)) (hi : SliceReads s i) :
    s.buf.read i ≠ none := by
  rcases hi with hparse | ⟨v, p, hd, hl, hp, hi⟩
  · cases h with
    | parseErr hd => exact (decodeVarint_spec hd).written hparse
    | short hd => exact (decodeVarint_spec hd).written hparse
    | slices hd => exact (decodeVarint_spec hd).written hparse
  · cases h with
    | parseErr hd' => cases hd.symm.trans hd'
    | short hd' hl' => cases hd.symm.trans hd'; omega
    | slices hd' _ hb =>
      cases hd.symm.trans hd'
      obtain ⟨hlen, hbytes⟩ := readBytes_eq_ok.1 hb
      obtain ⟨-, hread⟩ := readByte_eq_ok.1 (hbytes (i - p) (by omega))
      rw [Nat.add_sub_cancel' hp] at hread
      simp [hread]

/-- With `LEN ≤ N` a slicing that reads an unwritten byte stops with the model fault (R118). -/
theorem sliceAddress_of_unwritten {s : State} {i : Nat} (hN : s.len.toNat ≤ s.params.N) (hi : SliceReads s i)
    (hnone : s.buf.read i = none) : sliceAddress s = .error .unwrittenByte := by
  cases hslice : sliceAddress s with
  | ok r => exact absurd hnone ((sliceAddress_eq_iff.1 hslice).written hi)
  | error f =>
    obtain ⟨rfl, -⟩ := sliceAddress_error hslice hN
    rfl

/-- Settles O18: the run from the start of the scan does what the function does, its fault included, and a function that
answers has read written bytes alone. -/
theorem engineFaultsWithTheFunction : Obligations.EngineFaultsWithTheFunction := by
  refine ⟨fun s off f _ hoff h => ?_, fun s f hword h => ?_, fun s off i hN hi hnone => ?_, fun s i hN hi hnone => ?_⟩
  · have hrun := scan_from_start .mv off s hoff
    rw [varintEffect_error_iff.1 h] at hrun
    exact hrun.imp fun _ => And.right
  · have hrun := slice_from_start (latched_of_decode ((decode_eq_ok_iff (i := .slice) rfl).2 hword))
    rw [sliceEffect_error_iff.1 h] at hrun
    exact hrun
  · exact varintEffect_error_iff.2 (decodeVarint_of_unwritten hN hi hnone)
  · exact sliceEffect_error_iff.2 (sliceAddress_of_unwritten hN hi hnone)

/-! ## What can stop the machine -/

/-- A DecodeStep reads no byte and always has a next state (R58, R97). -/
theorem exec_answers (i : Instr) (s : State) : ∃ t, exec i s = .next t := by
  cases i with
  | chkcmp =>
    obtain ⟨hchkcmp, -⟩ := chkcmpCompletes
    exact (hchkcmp s).imp fun _ => And.left
  | _ => exact ⟨_, rfl⟩

/-- Answers of the engine that agree are next states or faults: `SameAnswer` has no case for a refusal. -/
theorem SameAnswer.next_or_fault {o p : Host.Outcome State Fault Refusal} (h : SameAnswer o p) :
    (∃ t, o = .next t) ∨ ∃ f, o = .fault f := by
  cases h with
  | next => exact .inl ⟨_, rfl⟩
  | fault f => exact .inr ⟨f, rfl⟩

/-- An engine step that stops has read a byte of the input and met its fault: the step was `SCAN`'s or `CHECK`'s (R58,
R118). -/
theorem engineStep_fault {s : State} {f : Fault} (h : engineStep s = .fault f) :
    ∃ i, i < s.len.toNat ∧ readByte s i = .error f := by
  cases hp : s.phase with
  | idle => cases (engineStep_idle hp).symm.trans h
  | decode =>
    cases hd : decode s.lcmd with
    | ok i =>
      obtain ⟨t, ht⟩ := exec_answers i s
      cases ht.symm.trans ((engineStep_decode hp hd).symm.trans h)
    | error e => cases (engineStep_illegal hp hd).symm.trans h
  | scan => exact ⟨_, scanStep_fault (engineStep_scan hp ▸ h)⟩
  | check =>
    obtain ⟨hl, hb⟩ := checkStep_fault (engineStep_check hp ▸ h)
    obtain ⟨j, hj, hread⟩ := readBytes_error hb
    exact ⟨_, by omega, hread⟩

/-- The engine's step answers with a next state, or with the fault of a byte of the input (R118). -/
theorem engineStep_answers (s : State) :
    (∃ t, engineStep s = .next t) ∨ ∃ f i, engineStep s = .fault f ∧ i < s.len.toNat ∧ readByte s i = .error f :=
  (engineStep_withHostSide s s).next_or_fault.imp_right fun ⟨f, h⟩ =>
    have ⟨i, hi⟩ := engineStep_fault h
    ⟨f, i, h, hi⟩

/-- A step of the machine answers as the engine's does; the host's move and `RST` never stop (R53, R118). -/
theorem step_answers (s : State) :
    (∃ t, step s = .next t) ∨ ∃ f i, step s = .fault f ∧ i < s.len.toNat ∧ readByte s i = .error f := by
  obtain ⟨engineTurn, hostTurn, engineMoves, hostMoves⟩ := stepIsTheMoversMove
  cases ht : s.turns with
  | nil =>
    by_cases hp : s.phase = .idle
    · exact .inl ⟨_, hostMoves s ht hp⟩
    · rw [engineMoves s ht hp]
      exact engineStep_answers s
  | cons turn rest =>
    cases turn with
    | host => exact .inl ⟨_, hostTurn s rest ht⟩
    | engine =>
      rw [engineTurn s rest ht]
      exact engineStep_answers { s with turns := rest }
    | rst => exact .inl ⟨_, resetAbortsAndClears s rest ht⟩

/-- With `LEN ≤ N` a byte of the input faults only where nothing has written it (R12, R118). -/
theorem readByte_error_of_lt_len {s : State} {i : Nat} {f : Fault} (hN : s.len.toNat ≤ s.params.N)
    (hi : i < s.len.toNat) (h : readByte s i = .error f) : f = .unwrittenByte ∧ s.buf.read i = none := by
  rcases readByte_eq_error.1 h with ⟨hout, _⟩ | ⟨_, hnone, hf⟩
  · omega
  · exact ⟨hf, hnone⟩

/-- The bytes of a written input do not fault (R119). -/
theorem InputWritten.readByte_ne_error {s : State} {i : Nat} (hw : InputWritten s) (hN : s.len.toNat ≤ s.params.N)
    (hi : i < s.len.toNat) (f : Fault) : readByte s i ≠ .error f := by
  intro h
  obtain ⟨-, hnone⟩ := readByte_error_of_lt_len hN hi h
  have hwritten := hw i hi
  simp [hnone] at hwritten

/-- Settles O49: a step that stops has met the fault of a byte of the input. -/
theorem engineFaultsOnlyOnUnwrittenInput : Obligations.EngineFaultsOnlyOnUnwrittenInput := by
  have hfault : ∀ {s f}, step s = .fault f → ∃ i, i < s.len.toNat ∧ readByte s i = .error f := by
    intro s f h
    rcases step_answers s with ⟨t, ht⟩ | ⟨g, i, hg, hi⟩
    · cases ht.symm.trans h
    · cases hg.symm.trans h
      exact ⟨i, hi⟩
  refine ⟨fun s f hinv h => ?_, fun s f hinv hw h => ?_, fun s r h => ?_⟩
  · obtain ⟨i, hi, hread⟩ := hfault h
    obtain ⟨hf, hnone⟩ := readByte_error_of_lt_len hinv.len_le hi hread
    exact ⟨hf, i, hi, hnone⟩
  · obtain ⟨i, hi, hread⟩ := hfault h
    exact hw.readByte_ne_error hinv.len_le hi f hread
  · rcases step_answers s with ⟨t, ht⟩ | ⟨f, i, hf, _⟩
    · cases ht.symm.trans h
    · cases hf.symm.trans h

/-! ## Every `WAIT` ends -/

/-- The engine, left alone, comes to `IDLE` (R103). -/
def ReachesIdle (s : State) : Prop := ∃ k u, engineRun k s = .next u ∧ u.phase = .idle

/-- A command reads bytes of the input alone (R18, R58). -/
theorem CommandReads.lt_len {s : State} {i : Nat} (h : CommandReads s i) : i < s.len.toNat := by
  rcases h with ⟨off, _, _, hi, _⟩ | ⟨_, ⟨_, hi, _⟩ | ⟨v, p, _, hl, _, hi⟩⟩
  · exact hi
  · exact hi
  · omega

section written
variable {s : State} (hN : s.len.toNat ≤ s.params.N) (hw : InputWritten s)

include hN hw

/-- From `DECODE` the command completes (R103). -/
theorem reachesIdle_of_decode (hp : s.phase = .decode) : ReachesIdle s := by
  have hwritten : ∀ i, CommandReads s i → ∃ b, s.buf.read i = some b := fun i hi =>
    Option.isSome_iff_exists.1 (hw i hi.lt_len)
  obtain ⟨k, u, hrun, hidle, -⟩ := everyCommandCompletes s hp hN hwritten
  exact ⟨k, u, hrun, hidle⟩

/-- From `CHECK` one step completes the command (R88). -/
theorem reachesIdle_of_check (hp : s.phase = .check) : ReachesIdle s := by
  rcases engineStep_answers s with ⟨t, ht⟩ | ⟨f, i, _, hi, hread⟩
  · refine ⟨1, t, run_one ht 0, ?_⟩
    rcases checkStep_next (engineStep_check hp ▸ ht) with ⟨_, rfl⟩ | ⟨_, _, _, rfl⟩ <;> rfl
  · exact absurd hread (hw.readByte_ne_error hN hi f)

/-- From `SCAN` the rest of the parse ends the command, or for a `SLICE` leads to `CHECK` (R78). -/
theorem reachesIdle_of_scan {off : Nat} (hp : s.phase = .scan) (hscan : ScanAt s off) : ReachesIdle s := by
  have hrun := scan_run _ s off rfl hp ⟨hscan.ptr_eq, hscan.shift_eq⟩
  obtain ⟨r, hr⟩ := decodeVarintFrom_written hN hw off (s.len.toNat - s.ptr.toNat + 1) s.acc.toNat s.cnt.toNat
  rw [hr] at hrun
  obtain ⟨k, u, -, -, hrun, hends⟩ := hrun
  cases r with
  | err e info => exact ⟨k, u, hrun, by rw [hends]; rfl⟩
  | ok v n =>
    obtain ⟨hmv, hms⟩ := hends
    cases hm : s.mode with
    | mv => exact ⟨k, u, hrun, by rw [hmv hm]; rfl⟩
    | ms =>
      obtain ⟨hsame, -⟩ := hms hm
      obtain ⟨hparams, hbuf, -, -, -, -, -, hlen, -, -, -, -, -, -, -, -, -, hphase⟩ := scan_fields hsame
      have hN' : u.len.toNat ≤ u.params.N := by rw [hlen, hparams]; exact hN
      have hw' : InputWritten u := by rw [InputWritten, hlen, hbuf]; exact hw
      obtain ⟨k', u', hrun', hidle⟩ := reachesIdle_of_check hN' hw' hphase
      exact ⟨k + k', u', (engineRun_add hrun).trans hrun', hidle⟩

end written

/-- On a written input the engine ends what it runs, in whichever phase it is (R103, R125). -/
theorem reachesIdle {s : State} (hinv : BlockInv s) (hw : InputWritten s) : ReachesIdle s := by
  cases hp : s.phase with
  | idle => exact ⟨0, s, rfl, hp⟩
  | decode => exact reachesIdle_of_decode hinv.len_le hw hp
  | scan =>
    obtain ⟨off, hscan⟩ := hinv.scanning hp
    exact reachesIdle_of_scan hinv.len_le hw hp hscan
  | check => exact reachesIdle_of_check hinv.len_le hw hp

/-- Settles O51: the engine runs to `IDLE`, with the `WAIT` still next, and then the host's read of `STATUS` ends it. -/
theorem waitEnds : Obligations.WaitEnds := by
  intro s rest hinv hw ht hs
  obtain ⟨k, u, hrun, hidle⟩ := reachesIdle hinv hw
  obtain ⟨⟨n, hn⟩, hscript, hturns⟩ := core_run_of_engineRun hrun ht
  have hwait := step_wait_idle hidle hturns (hscript.trans hs)
  exact ⟨n + 1, _, (core_run_add hn).trans (core_run_succ hwait 0), rfl, hidle⟩

end Sys2Proof.Machine
